-- ==== Sys2Proof/Word.lean ====
section
/-! DEFINITION. The word types of the core (rules R10, R14, R91). -/

namespace Sys2Proof

/-- A byte: a general register, a timer, a memory cell, a flag-file cell (R21, R27, R28, R37). -/
abbrev Byte := BitVec 8

/-- A 16-bit word: `pc`, `I`, a stack entry, an instruction (R23, R25, R26, R90). -/
abbrev Word := BitVec 16

/-- A nibble: one hexadecimal digit of an instruction word, or a hex key value (R91, R252). -/
abbrev Nibble := BitVec 4

/-- A 12-bit immediate address, which always lies inside memory (R92). -/
abbrev Addr := BitVec 12

/-- The number of a general register, `V0` to `VF` (R21). -/
abbrev Reg := Fin 16

/-- A key index: a position on the 4×4 pad (R19, R252). -/
abbrev KeyIndex := Fin 16

end Sys2Proof
end

