-- ==== Sys2Proof/Config.lean ====
section
/-! DEFINITION. The four variants, the implementation parameters of rule R11 as plain data, and the free values.

A parameter of R11 is a point the source leaves open. `Params` holds them all but VARIANT and RND, and the
machine carries its `Params` in `State.cfg`, which no instruction and no operation writes: a statement about every
state is then a statement about every value of every parameter. The free values have no body. -/

namespace Sys2Proof

/-- The instruction-set dialect, fixed when the core is created (R2, R36). -/
inductive Variant where
  | chip8
  | schip1_0
  | schip1_1
  | xochip
  deriving DecidableEq, Repr

/-- MODE_SWITCH_EFFECT (R11, R152): what `00FE` and `00FF` do to the pixels when they change the mode. -/
inductive ModeSwitchEffect where
  | keep
  | clear
  | havoc
  deriving DecidableEq, Repr

/-- FLAGS_X_GT_7 (R11, R224, R226): what `FX75` and `FX85` do for `X > 7`. -/
inductive LongFlagTransfer where
  | clamp
  | refuse
  deriving DecidableEq, Repr

/-- ROM_TOO_LARGE (R11, R325): what LOAD_ROM does with more than 3584 bytes. -/
inductive LongRom where
  | reject
  | truncate
  deriving DecidableEq, Repr

/-- The implementation parameters of rule R11. They are constants of one implementation. -/
structure Params where
  /-- LOWFONT: 16 glyphs of 5 rows (D3). -/
  lowfont : Vector Byte 80
  /-- HIFONT: 16 glyphs of 10 rows; `none` where the glyphs are not known, R11 gives no default (D3). -/
  hifont : Option (Vector Byte 160)
  /-- LOWFONT_BASE (D2). -/
  lowfontBase : Addr
  /-- HIFONT_BASE (D2). -/
  hifontBase : Addr
  /-- KEYMAP: key index to hex key value, required to be a permutation (R252, D4). -/
  keymap : Vector Nibble 16
  /-- SCHIP11_IS_LEGACY (D6). -/
  schip11IsLegacy : Bool
  /-- BNNN_XOCHIP_USES_VX (D7). -/
  bnnnXochipUsesVx : Bool
  /-- STACK_DEPTH: `none` is unbounded (D13). -/
  stackDepth : Option Nat
  /-- MODE_SWITCH_EFFECT (D11). -/
  modeSwitchEffect : ModeSwitchEffect
  /-- FLAGS_X_GT_7 (D9). -/
  flagsXGt7 : LongFlagTransfer
  /-- ROM_TOO_LARGE (D25). -/
  romTooLarge : LongRom
  /-- STEPS_PER_FRAME: read by the reference frame only (R345). -/
  stepsPerFrame : Nat
  /-- TICK_HZ: nominal, the core has no clock and nothing reads it (R11, R296, log entry 7). -/
  tickHz : Nat
  deriving DecidableEq, Repr

/-- FREE VALUE (log entry 3). The byte `RND` of the draw with this number (R196, U2): nothing constrains it. -/
opaque Config.freeRnd : Nat → Byte

/-- FREE VALUE (log entry 4). The cell in row `y`, column `x` after the mode switch with this draw number under
MODE_SWITCH_EFFECT = havoc (R152, U8). -/
opaque Config.freeCell : (draw y x : Nat) → Bool

/-- FREE VALUE (log entry 5). The hi-res glyph bytes where the parameter HIFONT is not given (R11, U12). -/
opaque Config.freeHifont : Vector Byte 160

end Sys2Proof
end

