-- ==== Sys2Proof/Machine/Variant.lean ====
section
/-! DEFINITION. The predicates on the variant that the rules use (R12). -/

namespace Sys2Proof

/-- `is_chip8` (R12). -/
def Variant.isChip8 : Variant → Bool
  | .chip8 => true
  | .schip1_0 | .schip1_1 | .xochip => false

/-- `is_super`: what the source writes as "SCHIP/XOCHIP" (R12). -/
def Variant.isSuper : Variant → Bool
  | .chip8 => false
  | .schip1_0 | .schip1_1 | .xochip => true

/-- `is_schip`: what the source writes as "SCHIP" alone (R12). -/
def Variant.isSchip : Variant → Bool
  | .schip1_0 | .schip1_1 => true
  | .chip8 | .xochip => false

/-- `is_xo` (R12). -/
def Variant.isXo : Variant → Bool
  | .xochip => true
  | .chip8 | .schip1_0 | .schip1_1 => false

/-- `clips`: "the original CHIP8 and legacy SCHIP variants" (R12, decision D6, log entry 15). -/
def Params.clips (p : Params) : Variant → Bool
  | .chip8 | .schip1_0 => true
  | .schip1_1 => p.schip11IsLegacy
  | .xochip => false

/-- Whether `BNNN` adds `V[X]` and not `V[0]` (R175, decision D7, log entry 16). -/
def Params.jumpUsesVx (p : Params) (v : Variant) : Bool :=
  v.isSchip || (v.isXo && p.bnnnXochipUsesVx)

end Sys2Proof
end

