-- ==== Sys2Proof/Syntax.lean ====
section
/-! DEFINITION. The instructions: one constructor per row of spec/opcode_table.json, in the table's order (R94). -/

namespace Sys2Proof

/-- An instruction with its operands as the rules use them: register numbers, and immediates exactly as they stand
in the word (R92). -/
inductive Instr where
  /-- `00E0` CLS (R140). -/
  | cls
  /-- `00EE` RET (R160). -/
  | ret
  /-- `00CN` SCD N (R142). -/
  | scd (n : Nibble)
  /-- `00FB` SCR (R145). -/
  | scr
  /-- `00FC` SCL (R147). -/
  | scl
  /-- `00FE` LOW (R150). -/
  | low
  /-- `00FF` HIGH (R151). -/
  | high
  /-- `1NNN` JP NNN (R162). -/
  | jp (nnn : Addr)
  /-- `2NNN` CALL NNN (R164). -/
  | call (nnn : Addr)
  /-- `3XNN` SE VX, NN (R167). -/
  | seImm (x : Reg) (nn : Byte)
  /-- `4XNN` SNE VX, NN (R168). -/
  | sneImm (x : Reg) (nn : Byte)
  /-- `5XY0` SE VX, VY (R169). -/
  | seReg (x y : Reg)
  /-- `6XNN` LD VX, NN (R183). -/
  | ldImm (x : Reg) (nn : Byte)
  /-- `7XNN` ADD VX, NN (R184). -/
  | addImm (x : Reg) (nn : Byte)
  /-- `8XY0` LD VX, VY (R185). -/
  | ldReg (x y : Reg)
  /-- `8XY1` OR VX, VY (R186). -/
  | orReg (x y : Reg)
  /-- `8XY2` AND VX, VY (R187). -/
  | andReg (x y : Reg)
  /-- `8XY3` XOR VX, VY (R188). -/
  | xorReg (x y : Reg)
  /-- `8XY4` ADD VX, VY (R190). -/
  | addReg (x y : Reg)
  /-- `8XY5` SUB VX, VY (R191). -/
  | subReg (x y : Reg)
  /-- `8XY6` SHR VX, VY (R193). -/
  | shr (x y : Reg)
  /-- `8XY7` SUBN VX, VY (R192). -/
  | subn (x y : Reg)
  /-- `8XYE` SHL VX, VY (R194). -/
  | shl (x y : Reg)
  /-- `9XY0` SNE VX, VY (R170). -/
  | sneReg (x y : Reg)
  /-- `ANNN` LD I, NNN (R210). -/
  | ldI (nnn : Addr)
  /-- `BNNN` JP V0, NNN; the register `X` of the table is the top nibble of `nnn` (R93, R175). -/
  | jpV0 (nnn : Addr)
  /-- `CXNN` RND VX, NN (R196). -/
  | rnd (x : Reg) (nn : Byte)
  /-- `DXYN` DRW VX, VY, N (R230). -/
  | drw (x y : Reg) (n : Nibble)
  /-- `EX9E` SKP VX (R254). -/
  | skp (x : Reg)
  /-- `EXA1` SKNP VX (R255). -/
  | sknp (x : Reg)
  /-- `FX07` LD VX, DT (R270). -/
  | ldVxDt (x : Reg)
  /-- `FX0A` LD VX, K (R258). -/
  | ldVxK (x : Reg)
  /-- `FX15` LD DT, VX (R271). -/
  | ldDtVx (x : Reg)
  /-- `FX18` LD ST, VX (R272). -/
  | ldStVx (x : Reg)
  /-- `FX1E` ADD I, VX (R212). -/
  | addI (x : Reg)
  /-- `FX29` LD F, VX (R214). -/
  | ldF (x : Reg)
  /-- `FX30` LD HF, VX (R216). -/
  | ldHf (x : Reg)
  /-- `FX33` LD B, VX (R218). -/
  | ldB (x : Reg)
  /-- `FX55` LD [I], VX (R220). -/
  | storeRegs (x : Reg)
  /-- `FX65` LD VX, [I] (R222). -/
  | loadRegs (x : Reg)
  /-- `FX75` LD R, VX (R224). -/
  | storeFlags (x : Reg)
  /-- `FX85` LD VX, R (R226). -/
  | loadFlags (x : Reg)
  /-- The last row of the table: a word no other row selects, kept whole (R102, R127). -/
  | unmatched (w : Word)
  deriving DecidableEq, Repr

end Sys2Proof
end

