-- ==== Sys2Proof/WellFormed.lean ====
section
/-! DEFINITION. Which instructions a variant has: the variant conditions of R96 to R100, and the words R103 lists as
unmatched. `isUnmatchedWord` is written from R103's list alone, not from the decoder. -/

namespace Sys2Proof

/-- The numbers `NNN` of the words `0NNN` that every variant decodes (R103, first point). -/
def systemWords : List Nat := [0x0E0, 0x0EE, 0x0FB, 0x0FC, 0x0FE, 0x0FF]

/-- The numbers `NN` of the words `FXNN` that a variant decodes (R103, last point). -/
def miscWords (v : Variant) : List Nat :=
  [0x07, 0x0A, 0x15, 0x18, 0x1E, 0x29, 0x33, 0x55, 0x65]
    ++ (if v.isSuper then [0x30] else []) ++ (if v.isXo then [0x75, 0x85] else [])

/-- The unmatched words, exhaustively, by their leading nibble (R103). -/
def isUnmatchedWord (v : Variant) (w : Word) : Bool :=
  let k := w.toNat
  match k / 0x1000 with
  | 0x0 => !(systemWords.contains (k % 0x1000) || (v.isSuper && decide (0x0C0 ≤ k % 0x1000 ∧ k % 0x1000 ≤ 0x0CF)))
  | 0x5 => decide (k % 0x10 ≠ 0)
  | 0x8 => [0x8, 0x9, 0xA, 0xB, 0xC, 0xD, 0xF].contains (k % 0x10)
  | 0x9 => decide (k % 0x10 ≠ 0)
  | 0xE => !([0x9E, 0xA1].contains (k % 0x100))
  | 0xF => !((miscWords v).contains (k % 0x100))
  | _ => false

/-- An instruction is well formed for a variant when the variant has it. -/
def Instr.wf (v : Variant) : Instr → Bool
  | .scd _ => v.isSuper
  | .ldHf _ => v.isSuper
  | .storeFlags _ => v.isXo
  | .loadFlags _ => v.isXo
  | .unmatched w => isUnmatchedWord v w
  | .cls | .ret | .scr | .scl | .low | .high => true
  | .jp _ | .call _ | .ldI _ | .jpV0 _ => true
  | .seImm _ _ | .sneImm _ _ | .ldImm _ _ | .addImm _ _ | .rnd _ _ => true
  | .seReg _ _ | .sneReg _ _ | .ldReg _ _ | .orReg _ _ | .andReg _ _ | .xorReg _ _ => true
  | .addReg _ _ | .subReg _ _ | .shr _ _ | .subn _ _ | .shl _ _ => true
  | .drw _ _ _ => true
  | .skp _ | .sknp _ | .ldVxDt _ | .ldVxK _ | .ldDtVx _ | .ldStVx _ => true
  | .addI _ | .ldF _ | .ldB _ | .storeRegs _ | .loadRegs _ => true

end Sys2Proof
end

