-- ==== Sys2Proof/Decode.lean ====
section
/-! DEFINITION. Decoding a word under a variant, the encoder, and the opcode table (R90 to R103, R108).

Decoding is total: a word no row selects decodes to `.unmatched`, the table's own last row, which is how this hardware
names it (R102). -/

namespace Sys2Proof

/-! ### Fields (R91, R92) -/

/-- `A`: the leading nibble. -/
def fieldA (w : Word) : Nibble := w.extractLsb' 12 4

/-- A nibble as a register number. -/
def regOf (b : Nibble) : Reg := b.toFin

/-- A register number as a nibble. -/
def regBits (x : Reg) : Nibble := BitVec.ofFin x

/-- `X`: the second nibble, a register number. -/
def fieldX (w : Word) : Reg := regOf (w.extractLsb' 8 4)

/-- `Y`: the third nibble, a register number. -/
def fieldY (w : Word) : Reg := regOf (w.extractLsb' 4 4)

/-- `N`: the fourth nibble. -/
def fieldN (w : Word) : Nibble := w.extractLsb' 0 4

/-- `NN`: the low byte. -/
def fieldNN (w : Word) : Byte := w.extractLsb' 0 8

/-- `NNN`: the low twelve bits. -/
def fieldNNN (w : Word) : Addr := w.extractLsb' 0 12

/-! ### The decoder (R94 to R102) -/

/-- The words `0NNN`: six exact words, and `00CN` where the variant has it (R94, R96, R99). -/
def decodeSystem (v : Variant) (w : Word) : Instr :=
  match fieldNNN w with
  | 0x0E0#12 => .cls
  | 0x0EE#12 => .ret
  | 0x0FB#12 => .scr
  | 0x0FC#12 => .scl
  | 0x0FE#12 => .low
  | 0x0FF#12 => .high
  | _ => if v.isSuper && w.extractLsb' 4 8 == 0x0C#8 then .scd (fieldN w) else .unmatched w

/-- The words `8XYN`: the low nibble is part of the opcode (R94, R95). -/
def decodeAlu (w : Word) : Instr :=
  match fieldN w with
  | 0x0#4 => .ldReg (fieldX w) (fieldY w)
  | 0x1#4 => .orReg (fieldX w) (fieldY w)
  | 0x2#4 => .andReg (fieldX w) (fieldY w)
  | 0x3#4 => .xorReg (fieldX w) (fieldY w)
  | 0x4#4 => .addReg (fieldX w) (fieldY w)
  | 0x5#4 => .subReg (fieldX w) (fieldY w)
  | 0x6#4 => .shr (fieldX w) (fieldY w)
  | 0x7#4 => .subn (fieldX w) (fieldY w)
  | 0xE#4 => .shl (fieldX w) (fieldY w)
  | _ => .unmatched w

/-- The words `EXNN` (R94). -/
def decodeKey (w : Word) : Instr :=
  match fieldNN w with
  | 0x9E#8 => .skp (fieldX w)
  | 0xA1#8 => .sknp (fieldX w)
  | _ => .unmatched w

/-- The words `FXNN`; `FX30`, `FX75` and `FX85` where the variant has them (R94, R97, R98). -/
def decodeMisc (v : Variant) (w : Word) : Instr :=
  match fieldNN w with
  | 0x07#8 => .ldVxDt (fieldX w)
  | 0x0A#8 => .ldVxK (fieldX w)
  | 0x15#8 => .ldDtVx (fieldX w)
  | 0x18#8 => .ldStVx (fieldX w)
  | 0x1E#8 => .addI (fieldX w)
  | 0x29#8 => .ldF (fieldX w)
  | 0x30#8 => if v.isSuper then .ldHf (fieldX w) else .unmatched w
  | 0x33#8 => .ldB (fieldX w)
  | 0x55#8 => .storeRegs (fieldX w)
  | 0x65#8 => .loadRegs (fieldX w)
  | 0x75#8 => if v.isXo then .storeFlags (fieldX w) else .unmatched w
  | 0x85#8 => if v.isXo then .loadFlags (fieldX w) else .unmatched w
  | _ => .unmatched w

/-- The instruction a word stands for under a variant (R94 to R102, R124). -/
def decode (v : Variant) (w : Word) : Instr :=
  match fieldA w with
  | 0x0#4 => decodeSystem v w
  | 0x1#4 => .jp (fieldNNN w)
  | 0x2#4 => .call (fieldNNN w)
  | 0x3#4 => .seImm (fieldX w) (fieldNN w)
  | 0x4#4 => .sneImm (fieldX w) (fieldNN w)
  | 0x5#4 => if fieldN w == 0#4 then .seReg (fieldX w) (fieldY w) else .unmatched w
  | 0x6#4 => .ldImm (fieldX w) (fieldNN w)
  | 0x7#4 => .addImm (fieldX w) (fieldNN w)
  | 0x8#4 => decodeAlu w
  | 0x9#4 => if fieldN w == 0#4 then .sneReg (fieldX w) (fieldY w) else .unmatched w
  | 0xA#4 => .ldI (fieldNNN w)
  | 0xB#4 => .jpV0 (fieldNNN w)
  | 0xC#4 => .rnd (fieldX w) (fieldNN w)
  | 0xD#4 => .drw (fieldX w) (fieldY w) (fieldN w)
  | 0xE#4 => decodeKey w
  | 0xF#4 => decodeMisc v w
  | _ => .unmatched w

/-- The word made of two bytes as the hardware stores them: the byte at the lower address is bits 15:8 (R63). -/
def wordOfBytes (hi lo : Byte) : Word := hi ++ lo

/-- The byte of a word that lies at the lower address (R63). -/
def hiByte (w : Word) : Byte := w.extractLsb' 8 8

/-- The byte of a word that lies at the higher address (R63). -/
def loByte (w : Word) : Byte := w.extractLsb' 0 8

/-- The variant under which a word of the opcode table is read: `XOCHIP`, the one variant that has every row of the
table (R94, log entry 1). -/
def tableVariant : Variant := .xochip

/-- The word whose bits spec/opcode_table.json numbers as `w`, `nbits` of them given and the rest 0. -/
def tableWord (nbits w : Nat) : Word := BitVec.ofNat 16 (w % 2 ^ nbits)

/-- The host's question: the instruction the decoder reads from the two bytes of a table word. Every word decodes. -/
def decodeTableWord (nbits w : Nat) : Option Instr :=
  some (decode tableVariant (wordOfBytes (hiByte (tableWord nbits w)) (loByte (tableWord nbits w))))

/-! ### The encoder (R91, R94) -/

/-- A word of format `NNN`. -/
def wordNNN (a : Nibble) (nnn : Addr) : Word := a ++ nnn

/-- A word of format `XNN` or `X`. -/
def wordXNN (a : Nibble) (x : Reg) (nn : Byte) : Word := a ++ regBits x ++ nn

/-- A word of format `XYN` or `XY`. -/
def wordXYN (a : Nibble) (x y : Reg) (n : Nibble) : Word := a ++ regBits x ++ regBits y ++ n

/-- The word of an instruction, from the patterns of R94. -/
def encode : Instr → Word
  | .cls => 0x00E0
  | .ret => 0x00EE
  | .scd n => wordXYN 0x0 0x0 0xC n
  | .scr => 0x00FB
  | .scl => 0x00FC
  | .low => 0x00FE
  | .high => 0x00FF
  | .jp nnn => wordNNN 0x1 nnn
  | .call nnn => wordNNN 0x2 nnn
  | .seImm x nn => wordXNN 0x3 x nn
  | .sneImm x nn => wordXNN 0x4 x nn
  | .seReg x y => wordXYN 0x5 x y 0x0
  | .ldImm x nn => wordXNN 0x6 x nn
  | .addImm x nn => wordXNN 0x7 x nn
  | .ldReg x y => wordXYN 0x8 x y 0x0
  | .orReg x y => wordXYN 0x8 x y 0x1
  | .andReg x y => wordXYN 0x8 x y 0x2
  | .xorReg x y => wordXYN 0x8 x y 0x3
  | .addReg x y => wordXYN 0x8 x y 0x4
  | .subReg x y => wordXYN 0x8 x y 0x5
  | .shr x y => wordXYN 0x8 x y 0x6
  | .subn x y => wordXYN 0x8 x y 0x7
  | .shl x y => wordXYN 0x8 x y 0xE
  | .sneReg x y => wordXYN 0x9 x y 0x0
  | .ldI nnn => wordNNN 0xA nnn
  | .jpV0 nnn => wordNNN 0xB nnn
  | .rnd x nn => wordXNN 0xC x nn
  | .drw x y n => wordXYN 0xD x y n
  | .skp x => wordXNN 0xE x 0x9E
  | .sknp x => wordXNN 0xE x 0xA1
  | .ldVxDt x => wordXNN 0xF x 0x07
  | .ldVxK x => wordXNN 0xF x 0x0A
  | .ldDtVx x => wordXNN 0xF x 0x15
  | .ldStVx x => wordXNN 0xF x 0x18
  | .addI x => wordXNN 0xF x 0x1E
  | .ldF x => wordXNN 0xF x 0x29
  | .ldHf x => wordXNN 0xF x 0x30
  | .ldB x => wordXNN 0xF x 0x33
  | .storeRegs x => wordXNN 0xF x 0x55
  | .loadRegs x => wordXNN 0xF x 0x65
  | .storeFlags x => wordXNN 0xF x 0x75
  | .loadFlags x => wordXNN 0xF x 0x85
  | .unmatched w => w

/-! ### The opcode table as data (R94, R108)

A second description of the encoding, row by row as the spec prints it. The decoder above does not use it. -/

/-- A row of the table: a word `w` selects it when `w and mask = pattern` and the variant is listed (R108). -/
structure OpcodeRow where
  mnemonic : String
  mask : Word
  pattern : Word
  variants : List Variant
  deriving DecidableEq, Repr

/-- The four variants (R2). -/
def allVariants : List Variant := [.chip8, .schip1_0, .schip1_1, .xochip]

/-- The variants with `is_super` (R12). -/
def superVariants : List Variant := [.schip1_0, .schip1_1, .xochip]

/-- Rows of the table of R94: `0NNN`: the display controller and RET. -/
def systemRows : List OpcodeRow :=
  [
    ⟨"CLS", 0xFFFF, 0x00E0, allVariants⟩,
    ⟨"RET", 0xFFFF, 0x00EE, allVariants⟩,
    ⟨"SCD_N", 0xFFF0, 0x00C0, superVariants⟩,
    ⟨"SCR", 0xFFFF, 0x00FB, allVariants⟩,
    ⟨"SCL", 0xFFFF, 0x00FC, allVariants⟩,
    ⟨"LOW", 0xFFFF, 0x00FE, allVariants⟩,
    ⟨"HIGH", 0xFFFF, 0x00FF, allVariants⟩
  ]

/-- Rows of the table of R94: `1NNN` to `7XNN`. -/
def flowRows : List OpcodeRow :=
  [
    ⟨"JP_NNN", 0xF000, 0x1000, allVariants⟩,
    ⟨"CALL_NNN", 0xF000, 0x2000, allVariants⟩,
    ⟨"SE_VX__NN", 0xF000, 0x3000, allVariants⟩,
    ⟨"SNE_VX__NN", 0xF000, 0x4000, allVariants⟩,
    ⟨"SE_VX__VY", 0xF00F, 0x5000, allVariants⟩,
    ⟨"LD_VX__NN", 0xF000, 0x6000, allVariants⟩,
    ⟨"ADD_VX__NN", 0xF000, 0x7000, allVariants⟩
  ]

/-- Rows of the table of R94: `8XYN` and `9XY0`. -/
def aluRows : List OpcodeRow :=
  [
    ⟨"LD_VX__VY", 0xF00F, 0x8000, allVariants⟩,
    ⟨"OR_VX__VY", 0xF00F, 0x8001, allVariants⟩,
    ⟨"AND_VX__VY", 0xF00F, 0x8002, allVariants⟩,
    ⟨"XOR_VX__VY", 0xF00F, 0x8003, allVariants⟩,
    ⟨"ADD_VX__VY", 0xF00F, 0x8004, allVariants⟩,
    ⟨"SUB_VX__VY", 0xF00F, 0x8005, allVariants⟩,
    ⟨"SHR_VX__VY", 0xF00F, 0x8006, allVariants⟩,
    ⟨"SUBN_VX__VY", 0xF00F, 0x8007, allVariants⟩,
    ⟨"SHL_VX__VY", 0xF00F, 0x800E, allVariants⟩,
    ⟨"SNE_VX__VY", 0xF00F, 0x9000, allVariants⟩
  ]

/-- Rows of the table of R94: `ANNN` to `DXYN` and the key skips. -/
def wideRows : List OpcodeRow :=
  [
    ⟨"LD_I__NNN", 0xF000, 0xA000, allVariants⟩,
    ⟨"JP_V0__NNN", 0xF000, 0xB000, allVariants⟩,
    ⟨"RND_VX__NN", 0xF000, 0xC000, allVariants⟩,
    ⟨"DRW_VX__VY__N", 0xF000, 0xD000, allVariants⟩,
    ⟨"SKP_VX", 0xF0FF, 0xE09E, allVariants⟩,
    ⟨"SKNP_VX", 0xF0FF, 0xE0A1, allVariants⟩
  ]

/-- Rows of the table of R94: `FXNN`. -/
def miscRows : List OpcodeRow :=
  [
    ⟨"LD_VX__DT", 0xF0FF, 0xF007, allVariants⟩,
    ⟨"LD_VX__K", 0xF0FF, 0xF00A, allVariants⟩,
    ⟨"LD_DT__VX", 0xF0FF, 0xF015, allVariants⟩,
    ⟨"LD_ST__VX", 0xF0FF, 0xF018, allVariants⟩,
    ⟨"ADD_I__VX", 0xF0FF, 0xF01E, allVariants⟩,
    ⟨"LD_F__VX", 0xF0FF, 0xF029, allVariants⟩,
    ⟨"LD_HF__VX", 0xF0FF, 0xF030, superVariants⟩,
    ⟨"LD_B__VX", 0xF0FF, 0xF033, allVariants⟩,
    ⟨"LD__I___VX", 0xF0FF, 0xF055, allVariants⟩,
    ⟨"LD_VX___I", 0xF0FF, 0xF065, allVariants⟩,
    ⟨"LD_R__VX", 0xF0FF, 0xF075, [.xochip]⟩,
    ⟨"LD_VX__R", 0xF0FF, 0xF085, [.xochip]⟩
  ]
/-- The 42 rows of R94, in file order. -/
def opcodeRows : List OpcodeRow := systemRows ++ flowRows ++ aluRows ++ wideRows ++ miscRows

/-- The last row, which selects every word that no earlier row selected (R108). -/
def unmatchedRow : OpcodeRow := ⟨"(unmatched)", 0x0000, 0x0000, allVariants⟩

/-- Whether a word's bits are those of a row. -/
def OpcodeRow.matchesBits (r : OpcodeRow) (w : Word) : Bool := w &&& r.mask == r.pattern

/-- Whether a word selects a row under a variant (R108). -/
def OpcodeRow.selects (r : OpcodeRow) (v : Variant) (w : Word) : Bool :=
  r.matchesBits w && r.variants.contains v

/-- The row a word selects: the first in file order (R108). -/
def selectRow (v : Variant) (w : Word) : OpcodeRow :=
  (opcodeRows.find? fun r => r.selects v w).getD unmatchedRow

/-- The row's mnemonic for each instruction, as spec/opcode_table.json spells it. -/
def Instr.mnemonic : Instr → String
  | .cls => "CLS"
  | .ret => "RET"
  | .scd _ => "SCD_N"
  | .scr => "SCR"
  | .scl => "SCL"
  | .low => "LOW"
  | .high => "HIGH"
  | .jp _ => "JP_NNN"
  | .call _ => "CALL_NNN"
  | .seImm _ _ => "SE_VX__NN"
  | .sneImm _ _ => "SNE_VX__NN"
  | .seReg _ _ => "SE_VX__VY"
  | .ldImm _ _ => "LD_VX__NN"
  | .addImm _ _ => "ADD_VX__NN"
  | .ldReg _ _ => "LD_VX__VY"
  | .orReg _ _ => "OR_VX__VY"
  | .andReg _ _ => "AND_VX__VY"
  | .xorReg _ _ => "XOR_VX__VY"
  | .addReg _ _ => "ADD_VX__VY"
  | .subReg _ _ => "SUB_VX__VY"
  | .shr _ _ => "SHR_VX__VY"
  | .subn _ _ => "SUBN_VX__VY"
  | .shl _ _ => "SHL_VX__VY"
  | .sneReg _ _ => "SNE_VX__VY"
  | .ldI _ => "LD_I__NNN"
  | .jpV0 _ => "JP_V0__NNN"
  | .rnd _ _ => "RND_VX__NN"
  | .drw _ _ _ => "DRW_VX__VY__N"
  | .skp _ => "SKP_VX"
  | .sknp _ => "SKNP_VX"
  | .ldVxDt _ => "LD_VX__DT"
  | .ldVxK _ => "LD_VX__K"
  | .ldDtVx _ => "LD_DT__VX"
  | .ldStVx _ => "LD_ST__VX"
  | .addI _ => "ADD_I__VX"
  | .ldF _ => "LD_F__VX"
  | .ldHf _ => "LD_HF__VX"
  | .ldB _ => "LD_B__VX"
  | .storeRegs _ => "LD__I___VX"
  | .loadRegs _ => "LD_VX___I"
  | .storeFlags _ => "LD_R__VX"
  | .loadFlags _ => "LD_VX__R"
  | .unmatched _ => "(unmatched)"

end Sys2Proof
end

