-- ==== Sys2Proof/Machine/Defaults.lean ====
section
/-! DEFINITION. The values a created core starts with (R39) and the default parameters (R11). Each value the source
does not state is named in a log entry. -/

namespace Sys2Proof.Machine

/-- `pc` after CREATE: 0x0200 (R39, source §6). -/
def Reset.pc : Word := 0x0200

/-- `DT` and `ST` after CREATE: 0 (R39, source §6). -/
def Reset.timer : Byte := 0

/-- A general register after CREATE: 0 (R39, decision D8, log entry 2). -/
def Reset.register : Byte := 0

/-- `I` after CREATE: 0 (R39, decision D8, log entry 2). -/
def Reset.index : Word := 0

/-- A display cell after CREATE: 0 (R39, decision D8, log entry 2). -/
def Reset.cell : Bool := false

/-- `hires` after CREATE: lo-res (R39, decision D8, log entry 2). -/
def Reset.hires : Bool := false

/-- A key, live and in the snapshot, after CREATE: up (R39, decision D8, log entry 2). -/
def Reset.keyDown : Bool := false

/-- `latch` after CREATE: none (R39, decision D8, log entry 2). -/
def Reset.latch : Option KeyIndex := none

/-- A flag-file byte after CREATE: 0 (R39, decision D8, log entry 2). -/
def Reset.flag : Byte := 0

/-- `displayed` after CREATE: false (R39, decision D8, log entry 2). -/
def Reset.displayed : Bool := false

/-- The variant of `State.reset`: the argument CREATE is given there (log entry 1). -/
def Reset.variant : Variant := .xochip

/-- The model's draw counter after CREATE (log entry 3). -/
def Reset.draws : Nat := 0

/-- The default LOWFONT: the customary font of entry U9 (R11, D3, log entry 6). -/
def defaultLowfont : Vector Byte 80 :=
  #v[0xF0, 0x90, 0x90, 0x90, 0xF0, 0x20, 0x60, 0x20, 0x20, 0x70, 0xF0, 0x10, 0xF0, 0x80, 0xF0,
     0xF0, 0x10, 0xF0, 0x10, 0xF0,
     0x90, 0x90, 0xF0, 0x10, 0x10, 0xF0, 0x80, 0xF0, 0x10, 0xF0, 0xF0, 0x80, 0xF0, 0x90, 0xF0,
     0xF0, 0x10, 0x20, 0x40, 0x40,
     0xF0, 0x90, 0xF0, 0x90, 0xF0, 0xF0, 0x90, 0xF0, 0x10, 0xF0, 0xF0, 0x90, 0xF0, 0x90, 0x90,
     0xE0, 0x90, 0xE0, 0x90, 0xE0,
     0xF0, 0x80, 0x80, 0x80, 0xF0, 0xE0, 0x90, 0x90, 0x90, 0xE0, 0xF0, 0x80, 0xF0, 0x80, 0xF0,
     0xF0, 0x80, 0xF0, 0x80, 0x80]

/-- The candidate KEYMAP of entry U10: the customary 4×4 layout row by row (R11, D4, log entry 6). -/
def defaultKeymap : Vector Nibble 16 :=
  #v[0x1, 0x2, 0x3, 0xC, 0x4, 0x5, 0x6, 0xD, 0x7, 0x8, 0x9, 0xE, 0xA, 0x0, 0xB, 0xF]

/-- The defaults of R11; HIFONT has none (log entry 6). -/
def defaultParams : Params where
  lowfont := defaultLowfont
  hifont := none
  lowfontBase := 0x000
  hifontBase := 0x050
  keymap := defaultKeymap
  schip11IsLegacy := false
  bnnnXochipUsesVx := false
  stackDepth := none
  modeSwitchEffect := .keep
  flagsXGt7 := .clamp
  romTooLarge := .reject
  stepsPerFrame := 10
  tickHz := 60

end Sys2Proof.Machine
end

