-- ==== Sys2Proof/Machine/State.lean ====
section
/-! DEFINITION. The state record (R20), the reasons a step or an operation can stop, and the state after CREATE (R39). -/

namespace Sys2Proof.Machine

/-- `mem`, 4096 bytes (R28), as the cells that do not read as `Memory.unlisted`, in rising address order. -/
abbrev Memory := List Host.Cell

/-- `disp`: 64 rows from the top of 128 columns from the left; `true` is a lit cell (R29). -/
abbrev Display := Vector (Vector Bool 128) 64

/-- The state record of R20, then the two fields of the model's own. -/
structure State where
  /-- `V[0..15]` (R21); `V[15]` is `VF` (R22). -/
  v : Vector Byte 16
  /-- The program counter (R23). -/
  pc : Word
  /-- The index register `I` (R25). -/
  i : Word
  /-- The call stack, the most recently pushed entry first (R26). -/
  stack : List Word
  /-- The delay timer `DT` (R27). -/
  dt : Byte
  /-- The sound timer `ST` (R27). -/
  st : Byte
  /-- The memory `mem` (R28). -/
  mem : Memory
  /-- The display storage `disp` (R29). -/
  disp : Display
  /-- Hi-res mode (R30). -/
  hires : Bool
  /-- The live keypad, `true` while the key is down (R32). -/
  key : Vector Bool 16
  /-- The keypad snapshot `key_prev` (R33). -/
  keyPrev : Vector Bool 16
  /-- The key `FX0A` waits for the release of (R35). -/
  latch : Option KeyIndex
  /-- The variant, constant after CREATE (R36). -/
  variant : Variant
  /-- The flag file `flags[0..7]` (R37). -/
  flags : Vector Byte 8
  /-- Whether the most recent step executed `DXYN` (R34). -/
  displayed : Bool
  /-- THE MODEL'S OWN: the implementation parameters of R11, which nothing writes (log entry 6). -/
  cfg : Params
  /-- THE MODEL'S OWN: how many free values have been drawn; numbers the next draw (log entry 3). -/
  draws : Nat
  deriving DecidableEq, Repr

/-- The reasons a machine stops with a fault. There are none: the hardware raises no exception and every anomaly has a
defined fallback (R280), so no step of this model faults and the type is empty. -/
inductive Fault where
  deriving DecidableEq, Repr

/-- The reasons an operation is refused. -/
inductive Refusal where
  /-- Raised by `exec` for an instruction that has no meaning yet. Safe. No arm of `exec` raises it. -/
  | notModelled (mnemonic : String)
  /-- Raised by `2NNN` when the parameter STACK_DEPTH bounds the stack and the stack is full: what that push does is
  not in the source (R26, U18). Safe. Never raised with the default, an unbounded stack. -/
  | stackFull
  /-- Raised by `FX75` and `FX85` with `X > 7` under FLAGS_X_GT_7 = refuse (R224, R226). Safe. Never raised with the
  default, clamp. -/
  | flagTransferTooLong
  /-- Raised by LOAD_ROM with more than 3584 bytes under ROM_TOO_LARGE = reject, the default (R325). Safe. -/
  | romTooLarge
  /-- Raised by KEY with an index above 15 (R251). Safe. -/
  | keyIndexOutOfRange
  deriving DecidableEq, Repr

/-- CREATE(variant): the state of a core just created by an implementation with these parameters (R39, R320). -/
def State.create (p : Params) (var : Variant) : State where
  v := Vector.replicate 16 Reset.register
  pc := Reset.pc
  i := Reset.index
  stack := []
  dt := Reset.timer
  st := Reset.timer
  mem := []
  disp := Vector.replicate 64 (Vector.replicate 128 Reset.cell)
  hires := Reset.hires
  key := Vector.replicate 16 Reset.keyDown
  keyPrev := Vector.replicate 16 Reset.keyDown
  latch := Reset.latch
  variant := var
  flags := Vector.replicate 8 Reset.flag
  displayed := Reset.displayed
  cfg := p
  draws := Reset.draws

/-- The machine right after reset: CREATE with the variant of log entry 1 and the default parameters (R39, R320). -/
def State.reset : State := State.create defaultParams Reset.variant

end Sys2Proof.Machine
end

