-- ==== Sys2Proof/Machine/Ops.lean ====
section
/-! DEFINITION. The named operations over memory, registers, the display, the program counter and the phases of STEP.

There is no operation for taking an exception or returning from one: the hardware has neither (R280, R290, R291). -/

namespace Sys2Proof.Machine

/-- What one operation answers. -/
abbrev Outcome := Host.Outcome State Fault Refusal

/-! ### Memory (R16, R28, R61) -/

/-- What an unlisted address reads as: `mem` is all 0 after CREATE (R39, decision D8, log entry 2). -/
def Memory.unlisted : Byte := 0

/-- The number of bytes of `mem` (R10, R28). -/
def Memory.size : Nat := 4096

/-- The byte at an address below `Memory.size`. -/
def Memory.lookup : Memory → Nat → Byte
  | [], _ => Memory.unlisted
  | (k, b) :: rest, a => if k = a then b else Memory.lookup rest a

/-- A memory without the entry of an address. -/
def Memory.erase (m : Memory) (a : Nat) : Memory := m.filter fun cell => cell.1 != a

/-- Adds an entry for an address that has none, before the first entry with a higher address. -/
def Memory.insertCell : Memory → Nat → Byte → Memory
  | [], a, b => [(a, b)]
  | (k, c) :: rest, a, b => if a < k then (a, b) :: (k, c) :: rest else (k, c) :: Memory.insertCell rest a b

/-- Puts a byte at an address below `Memory.size`. A byte that an unlisted address reads as gets no entry. -/
def Memory.put (m : Memory) (a : Nat) (b : Byte) : Memory :=
  if b = Memory.unlisted then Memory.erase m a else Memory.insertCell (Memory.erase m a) a b

/-- The canonical form from address `lo` on: addresses strictly rising and below `Memory.size`, no entry equal to what
an unlisted address reads as. -/
def Memory.wfFrom : Nat → Memory → Bool
  | _, [] => true
  | lo, (k, b) :: rest =>
    decide (lo ≤ k) && decide (k < Memory.size) && !decide (b = Memory.unlisted) && Memory.wfFrom (k + 1) rest

/-- The canonical form of a memory. -/
def Memory.wf (m : Memory) : Bool := Memory.wfFrom 0 m

/-- `MemRead(addr, 1)`: the address is reduced modulo 4096 (R16, R61). -/
def Memory.read (m : Memory) (a : Nat) : Byte := Memory.lookup m (a % Memory.size)

/-- `MemRead(addr, 2)`: big-endian, the two addresses reduced separately (R16, R63, R122). -/
def Memory.read2 (m : Memory) (a : Nat) : Word := wordOfBytes (Memory.read m a) (Memory.read m (a + 1))

/-- `MemWrite(addr, 1, v)`: the address is reduced modulo 4096 (R16, R61). -/
def Memory.write (m : Memory) (a : Nat) (b : Byte) : Memory := Memory.put m (a % Memory.size) b

/-- Single-byte writes at `a`, `a + 1`, … in ascending order (R66). -/
def Memory.writeBlock (m : Memory) (a : Nat) : List Byte → Memory
  | [] => m
  | b :: rest => Memory.writeBlock (Memory.write m a b) (a + 1) rest

/-- Stores a word as an instruction lies in memory: the high byte at the lower address (R63). -/
def Memory.write2 (m : Memory) (a : Nat) (w : Word) : Memory := Memory.writeBlock m a [hiByte w, loByte w]

/-! ### Registers (R15, R21, R22) -/

/-- The number of `VF` (R22). -/
def vf : Reg := 15

/-- `V[x]` (R15). -/
def State.reg (s : State) (x : Reg) : Byte := s.v[x.val]

/-- `V[x] <- b` (R15). -/
def State.setReg (s : State) (x : Reg) (b : Byte) : State := { s with v := s.v.set x.val b }

/-- `VF <- b`, the flag write (R22). -/
def State.setFlag (s : State) (b : Byte) : State := s.setReg vf b

/-- Writes a result, then the flag: the flag comes last and wins when `x` is 15 (R182, decision D18, log entry 22). -/
def State.setRegThenFlag (s : State) (x : Reg) (r flag : Byte) : State := (s.setReg x r).setFlag flag

/-- Replaces registers `V[0]` to `V[x]` by a block of bytes, one for each register number (R222, R226). -/
def State.setRegsUpTo (s : State) (x : Nat) (block : Nat → Byte) : State :=
  { s with v := Vector.ofFn fun r : Fin 16 => if r.val ≤ x then block r.val else s.v[r.val] }

/-! ### Program counter (R23, R121, R123, R166, R258) -/

/-- The bound check: a `pc` of 0x1000 or more is replaced by 0x0200 (R121, decision D1, log entry 10). -/
def boundPc (pc : Word) : Word := if 0x1000#16 ≤ pc then 0x0200 else pc

/-- "Skip next" when the condition holds: a further 2, modulo 65536 (R166, decision D29, log entry 33). -/
def State.skipIf (s : State) (c : Bool) : State := { s with pc := if c then s.pc + 2 else s.pc }

/-- Takes the advance back, so that the next step repeats this instruction (R258). -/
def State.repeatInstr (s : State) : State := { s with pc := s.pc - 2 }

/-! ### Display (R29, R30, R31) -/

/-- `W`, the active width (R31). -/
def State.width (s : State) : Nat := if s.hires then 128 else 64

/-- `H`, the active height (R31). -/
def State.height (s : State) : Nat := if s.hires then 64 else 32

/-- `disp[y][x]`; a cell outside the storage is 0. -/
def Display.get (d : Display) (y x : Nat) : Bool := if h : y < 64 ∧ x < 128 then d[y][x] else false

/-- `disp[y][x] <- b`; a cell outside the storage does not exist and nothing is written. -/
def Display.put (d : Display) (y x : Nat) (b : Bool) : Display :=
  if h : y < 64 ∧ x < 128 then d.set y (d[y].set x b) else d

/-- The display whose cell in row `y`, column `x` is `f y x`. -/
def Display.build (f : Nat → Nat → Bool) : Display :=
  Vector.ofFn fun y : Fin 64 => Vector.ofFn fun x : Fin 128 => f y.val x.val

/-- All 64 × 128 cells 0 (R140, decision D15, log entry 20). -/
def Display.blank : Display := Display.build fun _ _ => false

/-- Replaces the cells of the window of `w` columns and `h` rows and keeps every other cell (R142, decision D12, log
entry 19). -/
def Display.mapWindow (d : Display) (w h : Nat) (f : Nat → Nat → Bool) : Display :=
  Display.build fun y x => if y < h ∧ x < w then f y x else Display.get d y x

/-- A mode switch (R150, R151, R152). Executing it in the mode that is already active changes nothing (the rules' corner
cases, log entry 18); otherwise `hires` changes and MODE_SWITCH_EFFECT says what the pixels do (decision D11). -/
def State.switchMode (s : State) (toHires : Bool) : State :=
  if s.hires = toHires then s
  else
    match s.cfg.modeSwitchEffect with
    | .keep => { s with hires := toHires }
    | .clear => { s with hires := toHires, disp := Display.blank }
    | .havoc =>
      { s with hires := toHires, disp := Display.build (Config.freeCell s.draws), draws := s.draws + 1 }

/-! ### Call stack (R15, R26) -/

/-- Whether STACK_DEPTH leaves room for one more entry; always so when it is unbounded (R26, U18). -/
def State.stackHasRoom (s : State) : Bool :=
  match s.cfg.stackDepth with
  | none => true
  | some depth => decide (s.stack.length < depth)

/-! ### The phases of STEP around the instruction (R120 to R128) -/

/-- The word phase 3 fetches, at the address phase 2 leaves in `pc` (R121, R122). -/
def State.fetchWord (s : State) : Word := Memory.read2 s.mem (boundPc s.pc).toNat

/-- Phases 1, 2 and 4: `displayed` cleared, the `pc` bound, the advance by 2 modulo 65536 (R121, R123, R128). -/
def State.beginStep (s : State) : State := { s with displayed := false, pc := boundPc s.pc + 2 }

/-- Phase 6: the keypad snapshot (R126). -/
def State.endStep (s : State) : State := { s with keyPrev := s.key }

/-- Applies a change to the next state of an outcome; a refusal stays as it is. -/
def Outcome.andThen (o : Outcome) (f : State → State) : Outcome :=
  match o with
  | .next t => .next (f t)
  | .fault r => .fault r
  | .refused r => .refused r

/-- Stores a word where the next step fetches: at `pc` after the bound check. -/
def State.placeWord (s : State) (w : Word) : State :=
  { s with mem := Memory.write2 s.mem (boundPc s.pc).toNat w }

end Sys2Proof.Machine
end

