-- ==== Sys2Proof/Machine/Flags.lean ====
section
/-! DEFINITION. Every value that is written to `VF` as a flag (R22, R181, R235). -/

namespace Sys2Proof.Machine

/-- A flag as a byte: 1 or 0. -/
def flagByte (b : Bool) : Byte := if b then 1 else 0

/-- The carry out of bit 7 of an 8-bit add (R181, R190). -/
def carryFlag (a b : Byte) : Byte := flagByte (decide (256 ≤ a.toNat + b.toNat))

/-- NOT-borrow of `a - b`: 1 when `a >= b`, equality included (R181, R191, R192). -/
def notBorrowFlag (a b : Byte) : Byte := flagByte (decide (b.toNat ≤ a.toNat))

/-- The bit a right shift by one moves out: bit 0 (R193). -/
def shiftedOutRight (b : Byte) : Byte := flagByte (b.getLsbD 0)

/-- The bit a left shift by one moves out: bit 7 (R194). -/
def shiftedOutLeft (b : Byte) : Byte := flagByte (b.getLsbD 7)

/-- Writes the result of a logic instruction; `VF` is then forced to 0 on `CHIP8` only (R186, R187, R188). -/
def State.setLogicResult (s : State) (x : Reg) (r : Byte) : State :=
  if s.variant.isChip8 then s.setRegThenFlag x r 0 else s.setReg x r

end Sys2Proof.Machine
end

