-- ==== Sys2Proof/Machine/Operands.lean ====
section
/-! DEFINITION. The operand forms: register-indirect memory through `I`, the register block, the shift source, the jump
offset, glyph addresses, key values, and the bits of a sprite. -/

namespace Sys2Proof.Machine

/-- The one addressing mode of data: `I + r`, reduced modulo 4096 by the access itself (R61). -/
def State.indexAddr (s : State) (r : Nat) : Nat := s.i.toNat + r

/-- Registers `V[0]` to `V[x]` in ascending order (R220). -/
def State.regsUpTo (s : State) (x : Reg) : List Byte := s.v.toList.take (x.val + 1)

/-- The three decimal digits of a byte, hundreds first (R218). -/
def bcdDigits (b : Byte) : List Byte :=
  [BitVec.ofNat 8 (b.toNat / 100), BitVec.ofNat 8 (b.toNat / 10 % 10), BitVec.ofNat 8 (b.toNat % 10)]

/-- `I` after `FX55` and `FX65`: advanced by `X + 1` on `CHIP8` only (R220, R222). -/
def State.indexAfterBlock (s : State) (x : Reg) : Word :=
  if s.variant.isChip8 then s.i + BitVec.ofNat 16 (x.val + 1) else s.i

/-- The low nibble of a byte: `V[X][3:0]`. -/
def lowNibble (b : Byte) : Nibble := b.extractLsb' 0 4

/-- The address of glyph `d` in a table of glyphs of `rows` bytes at `base` (R214, R216). -/
def glyphAddr (base : Addr) (rows : Nat) (d : Nibble) : Word :=
  BitVec.ofNat 16 (base.toNat + rows * d.toNat)

/-- The source of a shift: `V[Y]` on `CHIP8`, `V[X]` elsewhere (R193, R194). -/
def State.shiftSource (s : State) (x y : Reg) : Byte := if s.variant.isChip8 then s.reg y else s.reg x

/-- The register number `X` of `BNNN`: the top nibble of `NNN` (R93). -/
def jumpReg (nnn : Addr) : Reg := regOf (nnn.extractLsb' 8 4)

/-- The offset of `BNNN` (R175). -/
def State.jumpOffset (s : State) (nnn : Addr) : Byte :=
  if s.cfg.jumpUsesVx s.variant then s.reg (jumpReg nnn) else s.reg 0

/-- `keyindex(h)`: the index `j` with `KEYMAP[j] = h` (R252). KEYMAP is a permutation, so there is exactly one; the
answer 0 for a table that is none is never used by a legal implementation (log entry 8). -/
def keyIndexOf (keymap : Vector Nibble 16) (h : Nibble) : KeyIndex :=
  ((List.finRange 16).find? fun j => keymap[j.val] == h).getD 0

/-- The key that `EX9E` and `EXA1` test: the low nibble of `V[X]` (R254, decision D10, log entry 26). -/
def State.namedKey (s : State) (x : Reg) : KeyIndex := keyIndexOf s.cfg.keymap (lowNibble (s.reg x))

/-- The least index that is down in a keypad, if any (R258). -/
def leastKeyDown (keys : Vector Bool 16) : Option KeyIndex :=
  (List.finRange 16).find? fun j => keys[j.val]

/-- `KEYMAP[k]` as the byte `FX0A` stores (R258). -/
def State.hexKey (s : State) (k : KeyIndex) : Byte := (s.cfg.keymap[k.val]).setWidth 8

/-! ### Sprites (R230 to R234) -/

/-- Whether `DXYN` draws a big sprite: `N = 0` where the variant has `is_super`, whatever `hires` is (R231). -/
def State.bigSprite (s : State) (n : Nibble) : Bool := n == 0 && s.variant.isSuper

/-- The number of rows of a sprite (R231). -/
def State.spriteRows (s : State) (n : Nibble) : Nat := if s.bigSprite n then 16 else n.toNat

/-- The number of columns of a sprite (R231). -/
def State.spriteCols (s : State) (n : Nibble) : Nat := if s.bigSprite n then 16 else 8

/-- The sprite's bit in row `r`, column `c`: the most significant bit of a row is its leftmost pixel; a row of a big
sprite is two bytes (R233, R234, decision D5, log entry 14). -/
def State.spriteBit (s : State) (n : Nibble) (r c : Nat) : Bool :=
  if s.bigSprite n then (Memory.read2 s.mem (s.indexAddr (2 * r))).getLsbD (15 - c)
  else (Memory.read s.mem (s.indexAddr r)).getLsbD (7 - c)

/-- Where the pixel with offset `k` from a start position lands on an axis of `size` cells: the start is reduced modulo
the size; past the edge the pixel is clipped or wraps (R232, R236, R237, decision D14, log entry 23). -/
def placeOnAxis (clips : Bool) (size start k : Nat) : Option Nat :=
  if clips then (if start % size + k < size then some (start % size + k) else none)
  else some ((start % size + k) % size)

/-- The display row of sprite row `r` (R232). -/
def State.spriteY (s : State) (y : Reg) (r : Nat) : Option Nat :=
  placeOnAxis (s.cfg.clips s.variant) s.height (s.reg y).toNat r

/-- The display column of sprite column `c` (R232). -/
def State.spriteX (s : State) (x : Reg) (c : Nat) : Option Nat :=
  placeOnAxis (s.cfg.clips s.variant) s.width (s.reg x).toNat c

end Sys2Proof.Machine
end

