-- ==== Sys2Proof/Machine/Alu.lean ====
section
/-! DEFINITION. Register file and ALU: `6XNN 7XNN 8XY0 … 8XYE CXNN` (R180 to R196). Every source is read before a
register is written, and a flag is written last (R182). -/

namespace Sys2Proof.Machine

/-- `6XNN`, LD VX, NN (R183). -/
def execLdImm (x : Reg) (nn : Byte) (s : State) : Outcome := .next (s.setReg x nn)

/-- `7XNN`, ADD VX, NN: no flag (R184). -/
def execAddImm (x : Reg) (nn : Byte) (s : State) : Outcome := .next (s.setReg x (s.reg x + nn))

/-- `8XY0`, LD VX, VY (R185). -/
def execLdReg (x y : Reg) (s : State) : Outcome := .next (s.setReg x (s.reg y))

/-- `8XY1`, OR VX, VY (R186). -/
def execOrReg (x y : Reg) (s : State) : Outcome := .next (s.setLogicResult x (s.reg x ||| s.reg y))

/-- `8XY2`, AND VX, VY (R187). -/
def execAndReg (x y : Reg) (s : State) : Outcome := .next (s.setLogicResult x (s.reg x &&& s.reg y))

/-- `8XY3`, XOR VX, VY (R188). -/
def execXorReg (x y : Reg) (s : State) : Outcome := .next (s.setLogicResult x (s.reg x ^^^ s.reg y))

/-- `8XY4`, ADD VX, VY (R190). -/
def execAddReg (x y : Reg) (s : State) : Outcome :=
  .next (s.setRegThenFlag x (s.reg x + s.reg y) (carryFlag (s.reg x) (s.reg y)))

/-- `8XY5`, SUB VX, VY (R191). -/
def execSubReg (x y : Reg) (s : State) : Outcome :=
  .next (s.setRegThenFlag x (s.reg x - s.reg y) (notBorrowFlag (s.reg x) (s.reg y)))

/-- `8XY6`, SHR VX, VY (R193). -/
def execShr (x y : Reg) (s : State) : Outcome :=
  .next (s.setRegThenFlag x (s.shiftSource x y >>> 1) (shiftedOutRight (s.shiftSource x y)))

/-- `8XY7`, SUBN VX, VY (R192). -/
def execSubn (x y : Reg) (s : State) : Outcome :=
  .next (s.setRegThenFlag x (s.reg y - s.reg x) (notBorrowFlag (s.reg y) (s.reg x)))

/-- `8XYE`, SHL VX, VY (R194). -/
def execShl (x y : Reg) (s : State) : Outcome :=
  .next (s.setRegThenFlag x (s.shiftSource x y <<< 1) (shiftedOutLeft (s.shiftSource x y)))

/-- `CXNN` for a given random byte: `V[X] <- RND and NN` (R196). -/
def State.randomInto (s : State) (x : Reg) (nn rnd : Byte) : State := s.setReg x (rnd &&& nn)

/-- `CXNN`, RND VX, NN: the random byte is a fresh free value (R196, decision D16, log entry 3). -/
def execRnd (x : Reg) (nn : Byte) (s : State) : Outcome :=
  .next { s.randomInto x nn (Config.freeRnd s.draws) with draws := s.draws + 1 }

end Sys2Proof.Machine
end

