-- ==== Sys2Proof/Machine/ControlFlow.lean ====
section
/-! DEFINITION. Program counter and call stack: `00EE 1NNN 2NNN 3XNN 4XNN 5XY0 9XY0 BNNN` (R160 to R176). In each `pc`
is the already advanced program counter (R123). -/

namespace Sys2Proof.Machine

/-- `00EE`, RET: an empty stack resets `pc` to 0x0200 (R160, R282). -/
def execRet (s : State) : Outcome :=
  match s.stack with
  | [] => .next { s with pc := 0x0200 }
  | a :: rest => .next { s with pc := a, stack := rest }

/-- `1NNN`, JP NNN (R162). -/
def execJp (nnn : Addr) (s : State) : Outcome := .next { s with pc := nnn.setWidth 16 }

/-- `2NNN`, CALL NNN: pushes the advanced `pc` (R164). A full bounded stack is refused (R26, U18). -/
def execCall (nnn : Addr) (s : State) : Outcome :=
  if s.stackHasRoom then .next { s with pc := nnn.setWidth 16, stack := s.pc :: s.stack }
  else .refused .stackFull

/-- `3XNN`, SE VX, NN (R167). -/
def execSeImm (x : Reg) (nn : Byte) (s : State) : Outcome := .next (s.skipIf (s.reg x == nn))

/-- `4XNN`, SNE VX, NN (R168). -/
def execSneImm (x : Reg) (nn : Byte) (s : State) : Outcome := .next (s.skipIf (s.reg x != nn))

/-- `5XY0`, SE VX, VY (R169). -/
def execSeReg (x y : Reg) (s : State) : Outcome := .next (s.skipIf (s.reg x == s.reg y))

/-- `9XY0`, SNE VX, VY (R170). -/
def execSneReg (x y : Reg) (s : State) : Outcome := .next (s.skipIf (s.reg x != s.reg y))

/-- `BNNN`, JP V0, NNN: a 16-bit sum that is not reduced (R175). -/
def execJpV0 (nnn : Addr) (s : State) : Outcome :=
  .next { s with pc := nnn.setWidth 16 + (s.jumpOffset nnn).setWidth 16 }

end Sys2Proof.Machine
end

