-- ==== Sys2Proof/Machine/DisplayControl.lean ====
section
/-! DEFINITION. The display buffer and scroll controller: `00E0 00CN 00FB 00FC 00FE 00FF` (R140 to R152). -/

namespace Sys2Proof.Machine

/-- Moves the active window; a cell takes the value `f` gives from the display before the scroll. -/
def State.scroll (s : State) (f : Nat → Nat → Bool) : State :=
  { s with disp := Display.mapWindow s.disp s.width s.height f }

/-- `00E0`, CLS (R140). -/
def execCls (s : State) : Outcome := .next { s with disp := Display.blank }

/-- `00CN`, SCD N (R142). A variant without the row treats its word as unmatched (R96). -/
def execScd (n : Nibble) (s : State) : Outcome :=
  if s.variant.isSuper then
    .next (s.scroll fun y x => if n.toNat ≤ y then Display.get s.disp (y - n.toNat) x else false)
  else .next s

/-- `00FB`, SCR (R145). -/
def execScr (s : State) : Outcome :=
  .next (s.scroll fun y x => if 4 ≤ x then Display.get s.disp y (x - 4) else false)

/-- `00FC`, SCL (R147). -/
def execScl (s : State) : Outcome :=
  .next (s.scroll fun y x => if x + 4 < s.width then Display.get s.disp y (x + 4) else false)

/-- `00FE`, LOW (R150, R152). -/
def execLow (s : State) : Outcome := .next (s.switchMode false)

/-- `00FF`, HIGH (R151, R152). -/
def execHigh (s : State) : Outcome := .next (s.switchMode true)

end Sys2Proof.Machine
end

