-- ==== Sys2Proof/Machine/Draw.lean ====
section
/-! DEFINITION. The sprite compositor: `DXYN` (R230 to R240). -/

namespace Sys2Proof.Machine

/-- The cells, row and column, that one sprite row toggles, left to right. The loop over the columns ends where a
column is clipped; since columns rise, leaving out every clipped column is the same (R236). -/
def State.rowCells (s : State) (x y : Reg) (n : Nibble) (r : Nat) : List (Nat × Nat) :=
  (List.range (s.spriteCols n)).filterMap fun c =>
    if s.spriteBit n r c then
      match s.spriteY y r, s.spriteX x c with
      | some cy, some cx => some (cy, cx)
      | _, _ => none
    else none

/-- The cells that a draw toggles, row by row. A clipped row ends the draw; since rows rise, leaving out every clipped
row is the same (R236). -/
def State.drawCells (s : State) (x y : Reg) (n : Nibble) : List (Nat × Nat) :=
  (List.range (s.spriteRows n)).flatMap fun r => s.rowCells x y n r

/-- Toggles one cell and notes a collision with a cell that was 1 (R234, R235). -/
def toggleCell (a : Display × Bool) (cell : Nat × Nat) : Display × Bool :=
  (Display.put a.1 cell.1 cell.2 (!Display.get a.1 cell.1 cell.2), a.2 || Display.get a.1 cell.1 cell.2)

/-- The display and the collision after toggling cells in order; no collision before the first (R235). -/
def compose (d : Display) (cells : List (Nat × Nat)) : Display × Bool := cells.foldl toggleCell (d, false)

/-- `DXYN`, DRW VX, VY, N (R230): both coordinates and `N` are read before `VF` is written (R232, decision D14). -/
def execDrw (x y : Reg) (n : Nibble) (s : State) : Outcome :=
  let drawn := compose s.disp (s.drawCells x y n)
  .next ({ s with disp := drawn.1, displayed := true }.setFlag (flagByte drawn.2))

end Sys2Proof.Machine
end

