-- ==== Sys2Proof/Machine/IndexMemory.lean ====
section
/-! DEFINITION. Index register, memory and flag file: `ANNN FX1E FX29 FX30 FX33 FX55 FX65 FX75 FX85` (R210 to R226). -/

namespace Sys2Proof.Machine

/-- `ANNN`, LD I, NNN (R210). -/
def execLdI (nnn : Addr) (s : State) : Outcome := .next { s with i := nnn.setWidth 16 }

/-- `FX1E`, ADD I, VX: modulo 65536, no flag (R212, decision D20, log entry 32). -/
def execAddI (x : Reg) (s : State) : Outcome := .next { s with i := s.i + (s.reg x).setWidth 16 }

/-- `FX29`, LD F, VX (R214). -/
def execLdF (x : Reg) (s : State) : Outcome :=
  .next { s with i := glyphAddr s.cfg.lowfontBase 5 (lowNibble (s.reg x)) }

/-- `FX30`, LD HF, VX (R216). A variant without the row treats its word as unmatched (R97). -/
def execLdHf (x : Reg) (s : State) : Outcome :=
  if s.variant.isSuper then .next { s with i := glyphAddr s.cfg.hifontBase 10 (lowNibble (s.reg x)) }
  else .next s

/-- `FX33`, LD B, VX (R218). -/
def execLdB (x : Reg) (s : State) : Outcome :=
  .next { s with mem := Memory.writeBlock s.mem (s.indexAddr 0) (bcdDigits (s.reg x)) }

/-- `FX55`, LD [I], VX (R220). -/
def execStoreRegs (x : Reg) (s : State) : Outcome :=
  .next { s with mem := Memory.writeBlock s.mem (s.indexAddr 0) (s.regsUpTo x), i := s.indexAfterBlock x }

/-- `FX65`, LD VX, [I] (R222). -/
def execLoadRegs (x : Reg) (s : State) : Outcome :=
  .next { s.setRegsUpTo x.val (fun r => Memory.read s.mem (s.indexAddr r)) with i := s.indexAfterBlock x }

/-- Whether FLAGS_X_GT_7 gives a flag transfer up to `V[X]` no meaning (R224, R226, decision D9, log entry 17). -/
def State.refusesFlagTransfer (s : State) (x : Reg) : Bool :=
  decide (7 < x.val) && s.cfg.flagsXGt7 == .refuse

/-- `FX75`, LD R, VX: the flag file has 8 bytes (R224). A variant without the row treats its word as unmatched (R98). -/
def execStoreFlags (x : Reg) (s : State) : Outcome :=
  if s.variant.isXo then
    if s.refusesFlagTransfer x then .refused .flagTransferTooLong
    else .next { s with flags := Vector.ofFn fun r : Fin 8 => if r.val ≤ x.val then s.v[r.val] else s.flags[r.val] }
  else .next s

/-- `FX85`, LD VX, R: registers `V[0]` to `V[min(X, 7)]` (R226). A variant without the row treats its word as unmatched
(R98). -/
def execLoadFlags (x : Reg) (s : State) : Outcome :=
  if s.variant.isXo then
    if s.refusesFlagTransfer x then .refused .flagTransferTooLong
    else .next (s.setRegsUpTo (min x.val 7) fun r => s.flags[r]?.getD 0)
  else .next s

end Sys2Proof.Machine
end

