-- ==== Sys2Proof/Machine/Keypad.lean ====
section
/-! DEFINITION. The keypad instructions: `EX9E EXA1 FX0A` (R254 to R262). -/

namespace Sys2Proof.Machine

/-- `EX9E`, SKP VX: reads the live keypad (R254). -/
def execSkp (x : Reg) (s : State) : Outcome := .next (s.skipIf s.key[(s.namedKey x).val])

/-- `EXA1`, SKNP VX: reads the live keypad (R255). -/
def execSknp (x : Reg) (s : State) : Outcome := .next (s.skipIf !s.key[(s.namedKey x).val])

/-- `FX0A`, LD VX, K: a two-state machine on `latch`, at most one transition a step (R258, decision D19, log entry 27). -/
def execLdVxK (x : Reg) (s : State) : Outcome :=
  match s.latch with
  | none => .next { s.repeatInstr with latch := leastKeyDown s.keyPrev }
  | some k =>
    if s.keyPrev[k.val] && !s.key[k.val] then .next { s.setReg x (s.hexKey k) with latch := none }
    else .next s.repeatInstr

end Sys2Proof.Machine
end

