-- ==== Sys2Proof/Machine/Timers.lean ====
section
/-! DEFINITION. Timer access: `FX07 FX15 FX18` (R270 to R272). -/

namespace Sys2Proof.Machine

/-- `FX07`, LD VX, DT (R270). -/
def execLdVxDt (x : Reg) (s : State) : Outcome := .next (s.setReg x s.dt)

/-- `FX15`, LD DT, VX (R271). -/
def execLdDtVx (x : Reg) (s : State) : Outcome := .next { s with dt := s.reg x }

/-- `FX18`, LD ST, VX (R272). -/
def execLdStVx (x : Reg) (s : State) : Outcome := .next { s with st := s.reg x }

end Sys2Proof.Machine
end

