-- ==== Sys2Proof/Machine/Unmatched.lean ====
section
/-! DEFINITION. The unmatched word: phase 5 of STEP does nothing (R102, R127). -/

namespace Sys2Proof.Machine

/-- `(unmatched)`: a no-operation, whatever the word is (R127). The diagnostic log is outside the hardware (R6). -/
def execUnmatched (_w : Word) (s : State) : Outcome := .next s

end Sys2Proof.Machine
end

