-- ==== Sys2Proof/Machine/Step.lean ====
section
/-! DEFINITION. STEP (R120), and placing a word where the next step fetches. -/

namespace Sys2Proof.Machine

/-- STEP: exactly one instruction, in the six phases of R120. -/
def step (s : State) : Host.Outcome State Fault Refusal :=
  Outcome.andThen (exec (decode s.variant s.fetchWord) s.beginStep) State.endStep

/-- `s` with the word that spec/opcode_table.json numbers as `w` stored where the next step fetches (log entry 9). -/
def State.withFetchWord (s : State) (nbits w : Nat) : State := s.placeWord (tableWord nbits w)

end Sys2Proof.Machine
end

