-- ==== Sys2Proof/Machine/Environment.lean ====
section
/-! DEFINITION. The environment's operations (R8): CREATE, LOAD_FONT, LOAD_ROM, TICK, KEY, the four outputs, a sequence
of operations, and the reference frame (R345). STEP is `step`. -/

namespace Sys2Proof.Machine

/-- TICK: one frame tick of both timers (R296). -/
def State.tick (s : State) : State :=
  { s with dt := if s.dt = 0 then 0 else s.dt - 1, st := if s.st = 0 then 0 else s.st - 1 }

/-- `n` ticks. -/
def State.ticks (s : State) : Nat → State
  | 0 => s
  | n + 1 => (s.tick).ticks n

/-- KEY(index, pressed) (R250); an index above 15 is refused (R251, decision D23, log entry 28). -/
def setKey (index : Nat) (pressed : Bool) (s : State) : Outcome :=
  if h : index < 16 then .next { s with key := s.key.set index pressed }
  else .refused .keyIndexOutOfRange

/-- The hi-res glyphs LOAD_FONT writes: the parameter HIFONT, or free bytes where it is not given (R322, log entry 5). -/
def State.hifontBytes (s : State) : List Byte := (s.cfg.hifont.getD Config.freeHifont).toList

/-- LOAD_FONT (R322). -/
def loadFont (s : State) : State :=
  let low := Memory.writeBlock s.mem s.cfg.lowfontBase.toNat s.cfg.lowfont.toList
  { s with mem := if s.variant.isSuper then Memory.writeBlock low s.cfg.hifontBase.toNat s.hifontBytes else low }

/-- The address a program is loaded at (R10, R324). -/
def romBase : Nat := 0x200

/-- The largest program: 3584 bytes (R71). -/
def romMax : Nat := Memory.size - romBase

/-- Writes a program to memory from 0x200 (R324). -/
def State.placeRom (s : State) (bytes : List Byte) : State :=
  { s with mem := Memory.writeBlock s.mem romBase bytes }

/-- LOAD_ROM(bytes) (R324); a longer program is refused or truncated as ROM_TOO_LARGE says (R325). -/
def loadRom (bytes : List Byte) (s : State) : Outcome :=
  if bytes.length ≤ romMax then .next (s.placeRom bytes)
  else
    match s.cfg.romTooLarge with
    | .reject => .refused .romTooLarge
    | .truncate => .next (s.placeRom (bytes.take romMax))

/-- CREATE(variant) issued to this implementation: a new core with the same parameters (R320, R321). The draw counter
goes on, so that no free value is drawn twice (log entry 3). -/
def recreate (var : Variant) (s : State) : State := { State.create s.cfg var with draws := s.draws }

/-! ### Outputs (R302 to R306) -/

/-- GET_DISPLAY: the active window in row-major order, `W * H` values (R302, decision D17, log entry 29). -/
def State.getDisplay (s : State) : List Bool :=
  (List.range s.height).flatMap fun y => (List.range s.width).map fun x => Display.get s.disp y x

/-- GET_SOUND_TIMER (R304). -/
def State.getSoundTimer (s : State) : Byte := s.st

/-- The sound output: `ST != 0` (R304). -/
def State.soundOn (s : State) : Bool := s.getSoundTimer != 0

/-- DISPLAYED (R305). -/
def State.displayedThisFrame (s : State) : Bool := s.displayed

/-- HIRES_MODE (R306). -/
def State.hiresMode (s : State) : Bool := s.hires

/-! ### Sequences of operations (R8, R9) -/

/-- The operations that may change the state (R8). -/
inductive Op where
  | create (var : Variant)
  | loadFont
  | loadRom (bytes : List Byte)
  | step
  | tick
  | key (index : Nat) (pressed : Bool)
  deriving DecidableEq, Repr

/-- One operation, atomic (R8). -/
def Op.perform (op : Op) (s : State) : Outcome :=
  match op with
  | .create var => .next (recreate var s)
  | .loadFont => .next (Machine.loadFont s)
  | .loadRom bytes => Machine.loadRom bytes s
  | .step => Machine.step s
  | .tick => .next s.tick
  | .key index pressed => setKey index pressed s

/-- Whether a refusal is of an environment operation: it then changes no state and the environment goes on (R17, log entry 36). -/
def Refusal.ofEnvironment (r : Refusal) : Bool := r == .romTooLarge || r == .keyIndexOutOfRange

/-- Operations in the order the environment issues them (R9): any order, any number. -/
def runOps : List Op → State → Outcome
  | [], s => .next s
  | op :: rest, s =>
    match op.perform s with
    | .next t => runOps rest t
    | .fault r => .fault r
    | .refused r => if r.ofEnvironment then runOps rest s else .refused r

/-- At most `n` steps of a frame, stopping early after a draw on the variants that clip (R337, R345). -/
def frameSteps : Nat → State → Outcome
  | 0, s => .next s
  | n + 1, s =>
    match step s with
    | .next t => if t.displayed && t.cfg.clips t.variant then .next t else frameSteps n t
    | .fault r => .fault r
    | .refused r => .refused r

/-- The reference environment's frame: up to STEPS_PER_FRAME steps, then one TICK (R345). No rule depends on it. -/
def referenceFrame (s : State) : Outcome := Outcome.andThen (frameSteps s.cfg.stepsPerFrame s) State.tick

end Sys2Proof.Machine
end

