-- ==== Sys2Proof/Safety.lean ====
section
/-! DEFINITION. What a safe state is, and the words the statements use: frames, and the cells a sprite covers. -/

namespace Sys2Proof.Machine

/-- KEYMAP is a permutation of 0..15: no two key indexes have one hex value (R252). -/
abbrev KeymapIsPermutation (p : Params) : Prop :=
  ∀ j k : KeyIndex, p.keymap[j.val] = p.keymap[k.val] → j = k

/-- A stack that STACK_DEPTH bounds holds at most that many entries (R26). -/
def StackFits (s : State) : Prop := ∀ depth, s.cfg.stackDepth = some depth → s.stack.length ≤ depth

/-- The invariant of a core that was created and then only used through its operations: memory is in canonical form,
`pc` and the stack entries keep the bounds of R24, the stack fits, and the key table is a permutation. -/
structure Inv (s : State) : Prop where
  memWf : Memory.wf s.mem = true
  pcBound : s.pc.toNat ≤ 0x10FE
  stackBound : ∀ a ∈ s.stack, a.toNat ≤ 0x1001
  stackFits : StackFits s
  keymapLegal : KeymapIsPermutation s.cfg

/-- The parameters under which no step is refused: FLAGS_X_GT_7 = clamp and an unbounded stack, the defaults of R11. -/
def NoStepRefusedBy (p : Params) : Prop := p.flagsXGt7 = .clamp ∧ p.stackDepth = none

/-- The instruction that the next step runs. -/
def State.nextInstr (s : State) : Instr := decode s.variant s.fetchWord

/-! ### Frames -/

/-- Every byte of memory reads as before. -/
def SameMemory (s t : State) : Prop := ∀ a, Memory.read t.mem a = Memory.read s.mem a

/-- Every byte of memory outside the `len` bytes from `start` on reads as before. -/
def SameMemoryOutside (start len : Nat) (s t : State) : Prop :=
  ∀ a, (∀ k, k < len → a % 4096 ≠ (start + k) % 4096) → Memory.read t.mem a = Memory.read s.mem a

/-- Every general register but those listed is unchanged. -/
def SameRegsBut (rs : List Reg) (s t : State) : Prop := ∀ r, r ∉ rs → t.reg r = s.reg r

/-- Nothing but the listed registers changes: no other register, no byte of memory, no other field of the state. -/
def OnlyRegsChange (rs : List Reg) (s t : State) : Prop :=
  SameRegsBut rs s t ∧ SameMemory s t ∧ t = { s with v := t.v }

/-- Nothing but `pc` changes: no register, no byte of memory, no other field of the state. -/
def OnlyPcChanges (s t : State) : Prop := SameRegsBut [] s t ∧ SameMemory s t ∧ t = { s with pc := t.pc }

/-- Nothing but the display storage changes. -/
def OnlyDisplayChanges (s t : State) : Prop := SameRegsBut [] s t ∧ SameMemory s t ∧ t = { s with disp := t.disp }

/-! ### Sprites -/

/-- The sprite bit of row `r`, column `c`, from the bytes of memory (R231, R233, R234). -/
def SpritePixel (s : State) (n : Nibble) (r c : Nat) : Prop :=
  if n = 0 ∧ s.variant ≠ .chip8 then
    r < 16 ∧ c < 16 ∧
      (if c < 8 then (Memory.read s.mem (s.i.toNat + 2 * r)).getLsbD (7 - c) = true
       else (Memory.read s.mem (s.i.toNat + 2 * r + 1)).getLsbD (15 - c) = true)
  else r < n.toNat ∧ c < 8 ∧ (Memory.read s.mem (s.i.toNat + r)).getLsbD (7 - c) = true

/-- The cell on which the sprite pixel of row `r`, column `c` lands, when it lands on one (R232, R236, R237). -/
def LandsOn (s : State) (x y : Reg) (r c cy cx : Nat) : Prop :=
  let y0 := (s.reg y).toNat % s.height
  let x0 := (s.reg x).toNat % s.width
  if s.cfg.clips s.variant then cy = y0 + r ∧ cx = x0 + c ∧ cy < s.height ∧ cx < s.width
  else cy = (y0 + r) % s.height ∧ cx = (x0 + c) % s.width

/-- Some 1 bit of the sprite lands on the cell in row `cy`, column `cx`. -/
def Covered (s : State) (x y : Reg) (n : Nibble) (cy cx : Nat) : Prop :=
  ∃ r c, SpritePixel s n r c ∧ LandsOn s x y r c cy cx

end Sys2Proof.Machine
end

