-- ==== Sys2Proof/Certificates/Slice0/Obligations.lean ====
section
/-! DEFINITION. The statements for the provers. `exec` runs on a state whose `pc` has already advanced (R123). A
statement whose docstring names a decision D<n> rests on that decision of the spec, and on the log entry named with it,
not on the spec's source. -/

open Sys2Proof Sys2Proof.Machine

/-! ### Encoding -/

/-- Words written out from the patterns of R94 decode to their instructions. -/
def Obligations.WordsWrittenOutDecode : Prop :=
  ∀ v : Variant,
    decode v 0x00EE = .ret ∧ decode v 0x1234 = .jp 0x234 ∧ decode v 0x3310 = .seImm 3 0x10 ∧
    decode v 0x8AB6 = .shr 10 11 ∧ decode v 0x9120 = .sneReg 1 2 ∧ decode v 0xD015 = .drw 0 1 5 ∧
    decode v 0xE29E = .skp 2 ∧ decode v 0xF533 = .ldB 5 ∧ decode v 0xFF18 = .ldStVx 15 ∧
    decode .xochip 0xF175 = .storeFlags 1 ∧ decode .schip1_0 0x00C2 = .scd 2 ∧ decode v 0x5121 = .unmatched 0x5121

/-- Decoding the encoding of an instruction that a variant has gives the instruction back, with every operand. -/
def Obligations.DecodeOfEncodeIsIdentity : Prop :=
  ∀ (v : Variant) (i : Instr), i.wf v = true → decode v (encode i) = i

/-- Every word is the encoding of the one instruction it decodes to, and the variant has that instruction. -/
def Obligations.EncodeOfDecodeIsIdentity : Prop :=
  ∀ (v : Variant) (w : Word), encode (decode v w) = w ∧ (decode v w).wf v = true

/-- R94: no two rows of the opcode table overlap, and decoding selects the row whose fixed digits the word has and
whose variant condition holds, or none. -/
def Obligations.DecodeFollowsTheOpcodeTable : Prop :=
  (∀ w : Word, opcodeRows.Pairwise fun r q => ¬ (r.matchesBits w = true ∧ q.matchesBits w = true)) ∧
  ∀ (v : Variant) (w : Word),
    (∀ r ∈ opcodeRows, r.selects v w = true → (decode v w).mnemonic = r.mnemonic) ∧
    ((∀ r ∈ opcodeRows, r.selects v w = false) → decode v w = .unmatched w)

/-- R103 (derived there): the unmatched words are exactly the listed ones; 0x0000 is one of them. -/
def Obligations.UnmatchedWordsAreTheListedOnes : Prop :=
  (∀ (v : Variant) (w : Word), decode v w = .unmatched w ↔ isUnmatchedWord v w = true) ∧
  ∀ v : Variant, decode v 0x0000 = .unmatched 0x0000

/-- R91, R92, R93: the fields are the digits of the word, taken as they stand, and the register of `BNNN` is the top
digit of its `NNN`. -/
def Obligations.FieldsAreTheDigitsOfTheWord : Prop :=
  ∀ w : Word,
    (fieldA w).toNat = w.toNat / 4096 ∧ (fieldX w).val = w.toNat / 256 % 16 ∧
    (fieldY w).val = w.toNat / 16 % 16 ∧ (fieldN w).toNat = w.toNat % 16 ∧
    (fieldNN w).toNat = w.toNat % 256 ∧ (fieldNNN w).toNat = w.toNat % 4096 ∧
    jumpReg (fieldNNN w) = fieldX w

/-- R96, R97, R98: `00CN` and `FX30` are decoded where the variant is not `CHIP8`, `FX75` and `FX85` on `XOCHIP` only;
elsewhere their words are unmatched. -/
def Obligations.VariantConditionsOfTheRows : Prop :=
  ∀ (v : Variant) (w : Word),
    (w &&& 0xFFF0 = 0x00C0 → decode v w = if v = .chip8 then .unmatched w else .scd (fieldN w)) ∧
    (w &&& 0xF0FF = 0xF030 → decode v w = if v = .chip8 then .unmatched w else .ldHf (fieldX w)) ∧
    (w &&& 0xF0FF = 0xF075 → decode v w = if v = .xochip then .storeFlags (fieldX w) else .unmatched w) ∧
    (w &&& 0xF0FF = 0xF085 → decode v w = if v = .xochip then .loadFlags (fieldX w) else .unmatched w)

/-- R101: `SCHIP1_0` and `SCHIP1_1` decode identically, and no instruction tells them apart but `DXYN`, through the
`clips` predicate, when SCHIP11_IS_LEGACY is false. That `SCHIP1_0` clips and `SCHIP1_1` follows the parameter is a
choice (decision D6, log entry 15). -/
def Obligations.SchipVariantsDifferOnlyInClipping : Prop :=
  (∀ w : Word, decode .schip1_0 w = decode .schip1_1 w) ∧
  ∀ (i : Instr) (s : State), (s.cfg.schip11IsLegacy = true ∨ ∀ x y n, i ≠ .drw x y n) →
    exec i { s with variant := .schip1_1 } =
      Outcome.andThen (exec i { s with variant := .schip1_0 }) fun t => { t with variant := .schip1_1 }

/-! ### The step -/

/-- R120: the six phases in order. A step runs the instruction that the two bytes at `pc`, after the bound check, decode
to, on the state with `displayed` cleared and `pc` advanced by 2, and then takes the keypad snapshot. The restart of a
`pc` of 0x1000 or more at 0x0200, before the fetch, is a choice (R121, decision D1, log entry 10), and so is that every
step clears `displayed` (R128, decision D21, log entry 25). -/
def Obligations.StepRunsTheDecodedInstruction : Prop :=
  ∀ s : State,
    let a : Word := if 0x1000 ≤ s.pc.toNat then 0x0200 else s.pc
    let w : Word := Memory.read s.mem a.toNat ++ Memory.read s.mem (a.toNat + 1)
    (decode s.variant w).wf s.variant = true ∧
    step s =
      match exec (decode s.variant w) { s with displayed := false, pc := a + 2 } with
      | .next t => .next { t with keyPrev := t.key }
      | .fault r => .fault r
      | .refused r => .refused r

/-- The net effect of a step on an unmatched word (R127); phase 5 itself does nothing, whatever the word. The restart of
a `pc` of 0x1000 or more at 0x0200 is a choice (decision D1, log entry 10), and so is that the step clears `displayed`
(decision D21, log entry 25). -/
def Obligations.UnmatchedWordIsANoOperation : Prop :=
  (∀ (w : Word) (s : State), exec (.unmatched w) s = .next s) ∧
  ∀ (s : State) (w : Word), s.nextInstr = .unmatched w →
    step s = .next { s with
      displayed := false
      pc := (if 0x1000 ≤ s.pc.toNat then 0x0200 else s.pc) + 2
      keyPrev := s.key }

/-- R126: the snapshot is taken at the end of every step without exception, is the `key` the instruction saw, and is the
only write of `key_prev`. -/
def Obligations.SnapshotEndsEveryStep : Prop :=
  (∀ s t : State, step s = .next t → t.keyPrev = s.key ∧ t.key = s.key) ∧
  ∀ (i : Instr) (s t : State), exec i s = .next t → t.keyPrev = s.keyPrev ∧ t.key = s.key

/-- After a step `displayed` is true exactly if the step executed `DXYN` (R34, R128; decision D21, log entry 25). -/
def Obligations.DisplayedExactlyAfterADraw : Prop :=
  ∀ s t : State, step s = .next t → (t.displayed = true ↔ ∃ x y n, s.nextInstr = .drw x y n)

/-- R130: steps do not decrement the timers (only `FX15` and `FX18` write them, and no arithmetic is done), and write
neither `key` nor `variant`. -/
def Obligations.StepNeverTouchesTimersKeysVariant : Prop :=
  ∀ s t : State, step s = .next t →
    t.key = s.key ∧ t.variant = s.variant ∧
    (t.dt = s.dt ∨ ∃ x, s.nextInstr = .ldDtVx x ∧ t.dt = s.reg x) ∧
    (t.st = s.st ∨ ∃ x, s.nextInstr = .ldStVx x ∧ t.st = s.reg x)

/-- Every step completes, but for the two refusals the parameters STACK_DEPTH and FLAGS_X_GT_7 give rise to; with their
defaults every state has a next step (R129, R131, R280). -/
def Obligations.EveryStepCompletes : Prop :=
  (∀ s : State, NoStepRefusedBy s.cfg → ∃ t, step s = .next t) ∧
  ∀ s : State, (∃ t, step s = .next t) ∨
    (step s = .refused .stackFull ∧ (∃ nnn, s.nextInstr = .call nnn) ∧
      ∃ depth, s.cfg.stackDepth = some depth ∧ depth ≤ s.stack.length) ∨
    (step s = .refused .flagTransferTooLong ∧ s.cfg.flagsXGt7 = .refuse ∧ s.variant = .xochip ∧
      ∃ x : Reg, 7 < x.val ∧ (s.nextInstr = .storeFlags x ∨ s.nextInstr = .loadFlags x))

/-- The invariant is kept by every step from every state that has it (R24, R26, R252, and the canonical form). The bounds
of R24 rest on the restart of `pc` (decision D1, log entry 10). -/
def Obligations.StepKeepsTheInvariant : Prop :=
  ∀ s t : State, Inv s → step s = .next t → Inv t

/-- The invariant holds after reset, and after CREATE by any implementation with a legal key table. -/
def Obligations.ResetHasTheInvariant : Prop :=
  Inv State.reset ∧ ∀ (p : Params) (v : Variant), KeymapIsPermutation p → Inv (State.create p v)

/-- The invariant is kept by every sequence of operations the environment may issue, in any order (R8, R9, R326, R346). -/
def Obligations.OperationsKeepTheInvariant : Prop :=
  ∀ (ops : List Op) (s t : State), Inv s → runOps ops s = .next t → Inv t

/-- Which instructions may write each field (R40, column "written by"): a step changes a field only if it runs one of
them. For `pc` (R176), only the listed instructions leave another value than the address fetched from plus 2, where that
address is after the bound check (decision D1, log entry 10). A step writes neither `key` nor `variant`, `key_prev` is
written by the snapshot alone, and `displayed` is true after a step only if it ran `DXYN` (decision D21, log entry 25).
`00FE` and `00FF` may write the display under MODE_SWITCH_EFFECT = clear or havoc only (decision D11, log entry 18). The
last two clauses are about the model's own fields (log entries 3, 4 and 6). -/
def Obligations.FieldsChangeOnlyByTheirWriters : Prop :=
  ∀ s t : State, step s = .next t →
    (t.pc ≠ (if 0x1000 ≤ s.pc.toNat then 0x0200 else s.pc) + 2 → s.nextInstr.mnemonic ∈ ["RET", "JP_NNN", "CALL_NNN",
      "SE_VX__NN", "SNE_VX__NN", "SE_VX__VY", "SNE_VX__VY", "JP_V0__NNN", "SKP_VX", "SKNP_VX", "LD_VX__K"]) ∧
    (t.i ≠ s.i → s.nextInstr.mnemonic ∈ ["LD_I__NNN", "ADD_I__VX", "LD_F__VX", "LD_HF__VX"] ∨
      (s.variant = .chip8 ∧ s.nextInstr.mnemonic ∈ ["LD__I___VX", "LD_VX___I"])) ∧
    (t.stack ≠ s.stack → s.nextInstr.mnemonic ∈ ["CALL_NNN", "RET"]) ∧
    (t.mem ≠ s.mem → s.nextInstr.mnemonic ∈ ["LD_B__VX", "LD__I___VX"]) ∧
    (t.disp ≠ s.disp → s.nextInstr.mnemonic ∈ ["CLS", "SCD_N", "SCR", "SCL", "DRW_VX__VY__N"] ∨
      (s.cfg.modeSwitchEffect ≠ .keep ∧ s.nextInstr.mnemonic ∈ ["LOW", "HIGH"])) ∧
    (t.hires ≠ s.hires → s.nextInstr.mnemonic ∈ ["LOW", "HIGH"]) ∧
    (t.latch ≠ s.latch → s.nextInstr.mnemonic = "LD_VX__K") ∧
    (t.flags ≠ s.flags → s.variant = .xochip ∧ s.nextInstr.mnemonic = "LD_R__VX") ∧
    (t.dt ≠ s.dt → s.nextInstr.mnemonic = "LD_DT__VX") ∧
    (t.st ≠ s.st → s.nextInstr.mnemonic = "LD_ST__VX") ∧
    (t.v ≠ s.v → s.nextInstr.mnemonic ∈ ["LD_VX__NN", "ADD_VX__NN", "LD_VX__VY", "OR_VX__VY", "AND_VX__VY", "XOR_VX__VY",
      "ADD_VX__VY", "SUB_VX__VY", "SHR_VX__VY", "SUBN_VX__VY", "SHL_VX__VY", "RND_VX__NN", "DRW_VX__VY__N", "LD_VX__DT",
      "LD_VX__K", "LD_VX___I", "LD_VX__R"]) ∧
    (t.displayed = true → s.nextInstr.mnemonic = "DRW_VX__VY__N") ∧
    t.key = s.key ∧ t.keyPrev = s.key ∧ t.variant = s.variant ∧
    (t.draws ≠ s.draws → s.nextInstr.mnemonic = "RND_VX__NN" ∨
      (s.cfg.modeSwitchEffect = .havoc ∧ s.nextInstr.mnemonic ∈ ["LOW", "HIGH"])) ∧
    t.cfg = s.cfg

/-- No instruction reads `ST` (R27, R272): two states that differ in `ST` only have the same outcome but for `ST`. -/
def Obligations.NoInstructionReadsTheSoundTimer : Prop :=
  ∀ (i : Instr) (s : State) (b : Byte),
    exec i { s with st := b } =
      Outcome.andThen (exec i s) fun t => { t with st := if ∃ x, i = .ldStVx x then t.st else b }

/-- A byte that `FX55` stores is the byte fetched by the very next step if `pc`, after the bound check (decision D1, log
entry 10), points at it (R75). -/
def Obligations.StoredBytesAreFetchedNext : Prop :=
  ∀ (s t : State) (x : Reg), s.nextInstr = .storeRegs x → step s = .next t →
    ∀ r : Reg, r ≤ x →
      ((s.i.toNat + r.val) % 4096 = (boundPc t.pc).toNat → hiByte t.fetchWord = s.reg r) ∧
      ((s.i.toNat + r.val) % 4096 = ((boundPc t.pc).toNat + 1) % 4096 → loByte t.fetchWord = s.reg r)

/-- A step on a jump to its own address changes nothing but `displayed` and the snapshot, and so do any further steps
(R131; the parking idiom of decision D30, log entry 35; that a step clears `displayed` is decision D21, log entry 25). -/
def Obligations.JumpToItselfParks : Prop :=
  ∀ (s : State) (nnn : Addr), s.nextInstr = .jp nnn → s.pc.toNat = nnn.toNat →
    ∀ n : Nat, Host.Core.run Sys2Proof.core (n + 1) s = .next { s with displayed := false, keyPrev := s.key }

/-! ### Memory -/

/-- R16: `MemRead` and `MemWrite` reduce the address modulo 4096, two bytes are read big-endian, a write sets the one
byte it names, and a write followed by a read gives the byte written. -/
def Obligations.MemoryPrimitivesReduceAddresses : Prop :=
  ∀ (m : Memory) (a b : Nat) (c : Byte),
    Memory.read m a = Memory.read m (a % 4096) ∧
    Memory.read2 m a = Memory.read m (a % 4096) ++ Memory.read m ((a + 1) % 4096) ∧
    Memory.read (Memory.write m a c) b = if a % 4096 = b % 4096 then c else Memory.read m b

/-- The canonical form: a write keeps it, and two memories in it that read alike are equal data (log entry 2). -/
def Obligations.MemoryIsDeterminedByItsBytes : Prop :=
  (∀ (m : Memory) (a : Nat) (c : Byte), Memory.wf m = true → Memory.wf (Memory.write m a c) = true) ∧
  ∀ m k : Memory, Memory.wf m = true → Memory.wf k = true →
    (∀ a, Memory.read m a = Memory.read k a) → m = k

/-! ### Register file and ALU -/

/-- R183, R184, R185: load immediate, add immediate modulo 256 without a flag, and copy. With `X = 15` the register
written is `VF` as an ordinary register. -/
def Obligations.LoadsAndImmediateAdd : Prop :=
  (∀ (v : Variant) (w : Word),
    (w &&& 0xF000 = 0x6000 → decode v w = .ldImm (fieldX w) (fieldNN w)) ∧
    (w &&& 0xF000 = 0x7000 → decode v w = .addImm (fieldX w) (fieldNN w)) ∧
    (w &&& 0xF00F = 0x8000 → decode v w = .ldReg (fieldX w) (fieldY w))) ∧
  ∀ (x y : Reg) (nn : Byte) (s : State),
    (∃ t, exec (.ldImm x nn) s = .next t ∧ t.reg x = nn ∧ OnlyRegsChange [x] s t) ∧
    (∃ t, exec (.addImm x nn) s = .next t ∧ (t.reg x).toNat = ((s.reg x).toNat + nn.toNat) % 256 ∧
      OnlyRegsChange [x] s t) ∧
    (∃ t, exec (.ldReg x y) s = .next t ∧ t.reg x = s.reg y ∧ OnlyRegsChange [x] s t)

/-- R186, R187, R188: OR, AND and XOR; on `CHIP8` `VF` is then 0, on the other variants it is untouched unless it is the
destination. With `X = 15` on `CHIP8` the result is lost. -/
def Obligations.LogicInstructions : Prop :=
  (∀ (v : Variant) (w : Word),
    (w &&& 0xF00F = 0x8001 → decode v w = .orReg (fieldX w) (fieldY w)) ∧
    (w &&& 0xF00F = 0x8002 → decode v w = .andReg (fieldX w) (fieldY w)) ∧
    (w &&& 0xF00F = 0x8003 → decode v w = .xorReg (fieldX w) (fieldY w))) ∧
  ∀ (x y : Reg) (s : State), ∀ p ∈
    [(Instr.orReg x y, s.reg x ||| s.reg y), (.andReg x y, s.reg x &&& s.reg y), (.xorReg x y, s.reg x ^^^ s.reg y)],
    ∃ t, exec p.1 s = .next t ∧
      (s.variant = .chip8 → t.reg 15 = 0 ∧ (x ≠ 15 → t.reg x = p.2) ∧ OnlyRegsChange [x, 15] s t) ∧
      (s.variant ≠ .chip8 → t.reg x = p.2 ∧ OnlyRegsChange [x] s t)

/-- `8XY4` adds modulo 256 and `VF` is the carry, on every variant (R190); with `X = 15` the sum is lost, because the
flag is written last (decision D18, log entry 22). -/
def Obligations.AddSetsCarry : Prop :=
  (∀ (v : Variant) (w : Word), w &&& 0xF00F = 0x8004 → decode v w = .addReg (fieldX w) (fieldY w)) ∧
  ∀ (x y : Reg) (s : State), ∃ t, exec (.addReg x y) s = .next t ∧
    (x ≠ 15 → (t.reg x).toNat = ((s.reg x).toNat + (s.reg y).toNat) % 256) ∧
    t.reg 15 = (if 256 ≤ (s.reg x).toNat + (s.reg y).toNat then 1 else 0) ∧
    OnlyRegsChange [x, 15] s t

/-- `8XY5` and `8XY7` subtract modulo 256 and `VF` is NOT-borrow, equality included, on every variant (R191, R192); with
`X = 15` the difference is lost, because the flag is written last (decision D18, log entry 22). -/
def Obligations.SubtractionsSetNotBorrow : Prop :=
  (∀ (v : Variant) (w : Word),
    (w &&& 0xF00F = 0x8005 → decode v w = .subReg (fieldX w) (fieldY w)) ∧
    (w &&& 0xF00F = 0x8007 → decode v w = .subn (fieldX w) (fieldY w))) ∧
  ∀ (x y : Reg) (s : State),
    (∃ t, exec (.subReg x y) s = .next t ∧
      (x ≠ 15 → (t.reg x).toNat = ((s.reg x).toNat + 256 - (s.reg y).toNat) % 256) ∧
      t.reg 15 = (if (s.reg y).toNat ≤ (s.reg x).toNat then 1 else 0) ∧ OnlyRegsChange [x, 15] s t) ∧
    (∃ t, exec (.subn x y) s = .next t ∧
      (x ≠ 15 → (t.reg x).toNat = ((s.reg y).toNat + 256 - (s.reg x).toNat) % 256) ∧
      t.reg 15 = (if (s.reg x).toNat ≤ (s.reg y).toNat then 1 else 0) ∧ OnlyRegsChange [x, 15] s t)

/-- The shifts by one take `V[Y]` on `CHIP8` and `V[X]` elsewhere, shift in a 0, and `VF` is the bit shifted out (R193,
R194); with `X = 15` the result is lost, because the flag is written last (decision D18, log entry 22). -/
def Obligations.ShiftsMoveOneBitOut : Prop :=
  (∀ (v : Variant) (w : Word),
    (w &&& 0xF00F = 0x8006 → decode v w = .shr (fieldX w) (fieldY w)) ∧
    (w &&& 0xF00F = 0x800E → decode v w = .shl (fieldX w) (fieldY w))) ∧
  ∀ (x y : Reg) (s : State),
    let src := (if s.variant = .chip8 then s.reg y else s.reg x).toNat
    (∃ t, exec (.shr x y) s = .next t ∧ (x ≠ 15 → (t.reg x).toNat = src / 2) ∧ (t.reg 15).toNat = src % 2 ∧
      OnlyRegsChange [x, 15] s t) ∧
    (∃ t, exec (.shl x y) s = .next t ∧ (x ≠ 15 → (t.reg x).toNat = src * 2 % 256) ∧ (t.reg 15).toNat = src / 128 ∧
      OnlyRegsChange [x, 15] s t)

/-- `CXNN` stores RND and NN for a random byte RND that the model leaves free, so the claim holds for every value of it,
and uses that free value up (R196, decision D16, log entry 3); no bit clear in NN is set, and no flag is written. -/
def Obligations.RandomIsMaskedByTheImmediate : Prop :=
  ∀ (x : Reg) (nn : Byte) (s : State), ∃ t, exec (.rnd x nn) s = .next t ∧
    t.reg x = Config.freeRnd s.draws &&& nn ∧ t.reg x &&& ~~~nn = 0 ∧ t.draws = s.draws + 1 ∧
    SameRegsBut [x] s t ∧ SameMemory s t ∧ t = { s with v := t.v, draws := t.draws }

/-! ### Control flow -/

/-- R160, R162: `00EE` pops the return address into `pc`, and an empty stack stays empty and gives 0x0200; `1NNN` jumps
to NNN, zero-extended. -/
def Obligations.ReturnAndJump : Prop :=
  (∀ v : Variant, decode v 0x00EE = .ret ∧ ∀ w : Word, w &&& 0xF000 = 0x1000 → decode v w = .jp (fieldNNN w)) ∧
  ∀ s : State,
    (∃ t, exec .ret s = .next t ∧
      (s.stack = [] → t.pc = 0x0200 ∧ t.stack = []) ∧
      (∀ a rest, s.stack = a :: rest → t.pc = a ∧ t.stack = rest) ∧
      SameRegsBut [] s t ∧ SameMemory s t ∧ t = { s with pc := t.pc, stack := t.stack }) ∧
    ∀ nnn : Addr, ∃ t, exec (.jp nnn) s = .next t ∧ t.pc.toNat = nnn.toNat ∧ OnlyPcChanges s t

/-- `2NNN` pushes the advanced `pc` and jumps to NNN where STACK_DEPTH leaves room, always so when it is unbounded; the
push onto a full bounded stack is refused (R164, decision D13, log entry 12). -/
def Obligations.CallPushesTheReturnAddress : Prop :=
  ∀ (nnn : Addr) (s : State),
    ((∀ depth, s.cfg.stackDepth = some depth → s.stack.length < depth) →
      ∃ t, exec (.call nnn) s = .next t ∧ t.pc.toNat = nnn.toNat ∧ t.stack = s.pc :: s.stack ∧
        SameRegsBut [] s t ∧ SameMemory s t ∧ t = { s with pc := t.pc, stack := t.stack }) ∧
    (∀ depth, s.cfg.stackDepth = some depth → depth ≤ s.stack.length → exec (.call nnn) s = .refused .stackFull)

/-- The four skips: when the condition holds `pc` is advanced by a further 2, otherwise left (R167 to R170; the distance
is decision D29, log entry 33). -/
def Obligations.SkipsAdvanceOneMoreWord : Prop :=
  ∀ (x y : Reg) (nn : Byte) (s : State),
    (∃ t, exec (.seImm x nn) s = .next t ∧ t.pc = (if s.reg x = nn then s.pc + 2 else s.pc) ∧ OnlyPcChanges s t) ∧
    (∃ t, exec (.sneImm x nn) s = .next t ∧ t.pc = (if s.reg x ≠ nn then s.pc + 2 else s.pc) ∧ OnlyPcChanges s t) ∧
    (∃ t, exec (.seReg x y) s = .next t ∧ t.pc = (if s.reg x = s.reg y then s.pc + 2 else s.pc) ∧
      OnlyPcChanges s t) ∧
    (∃ t, exec (.sneReg x y) s = .next t ∧ t.pc = (if s.reg x ≠ s.reg y then s.pc + 2 else s.pc) ∧
      OnlyPcChanges s t)

/-- `BNNN` adds to NNN, without any reduction, the register of the top digit of NNN on the SCHIP variants, on `XOCHIP`
where BNNN_XOCHIP_USES_VX says so, and `V[0]` otherwise (R175, decision D7, log entry 16). -/
def Obligations.OffsetJumpAddsARegister : Prop :=
  ∀ (nnn : Addr) (s : State), ∃ t, exec (.jpV0 nnn) s = .next t ∧
    t.pc.toNat = nnn.toNat +
      (if s.variant = .schip1_0 ∨ s.variant = .schip1_1 ∨ (s.variant = .xochip ∧ s.cfg.bnnnXochipUsesVx = true)
        then s.reg (Fin.ofNat 16 (nnn.toNat / 256)) else s.reg 0).toNat ∧
    OnlyPcChanges s t

/-! ### Index register, memory, flag file -/

/-- R210: `ANNN` loads `I` with NNN. -/
def Obligations.IndexLoad : Prop :=
  (∀ (v : Variant) (w : Word), w &&& 0xF000 = 0xA000 → decode v w = .ldI (fieldNNN w)) ∧
  ∀ (nnn : Addr) (s : State), ∃ t, exec (.ldI nnn) s = .next t ∧ t.i.toNat = nnn.toNat ∧
    SameRegsBut [] s t ∧ SameMemory s t ∧ t = { s with i := t.i }

/-- `FX1E` adds `V[X]` to `I` modulo 65536 and writes no flag (R212, decision D20, log entry 32). -/
def Obligations.IndexAddWrapsAtSixteenBits : Prop :=
  ∀ (x : Reg) (s : State), ∃ t, exec (.addI x) s = .next t ∧ t.i.toNat = (s.i.toNat + (s.reg x).toNat) % 65536 ∧
    SameRegsBut [] s t ∧ SameMemory s t ∧ t = { s with i := t.i }

/-- `FX29` and `FX30` give the glyph address of the low nibble of `V[X]`, and on `CHIP8` the word of `FX30` is unmatched
(R214, R216). That the meaning of `FX30` does nothing in a `CHIP8` state, which no decoded word reaches, is the model's
own completion (log entry 24). -/
def Obligations.GlyphAddresses : Prop :=
  (∀ (v : Variant) (w : Word),
    (w &&& 0xF0FF = 0xF029 → decode v w = .ldF (fieldX w)) ∧
    (w &&& 0xF0FF = 0xF030 → decode v w = if v = .chip8 then .unmatched w else .ldHf (fieldX w))) ∧
  ∀ (x : Reg) (s : State),
    (∃ t, exec (.ldF x) s = .next t ∧ t.i.toNat = s.cfg.lowfontBase.toNat + 5 * ((s.reg x).toNat % 16) ∧
      SameRegsBut [] s t ∧ SameMemory s t ∧ t = { s with i := t.i }) ∧
    (s.variant ≠ .chip8 → ∃ t, exec (.ldHf x) s = .next t ∧
      t.i.toNat = s.cfg.hifontBase.toNat + 10 * ((s.reg x).toNat % 16) ∧
      SameRegsBut [] s t ∧ SameMemory s t ∧ t = { s with i := t.i }) ∧
    (s.variant = .chip8 → exec (.ldHf x) s = .next s)

/-- R218: `FX33` stores the decimal digits of `V[X]` at `I`, `I + 1`, `I + 2`, hundreds first, and nothing else. -/
def Obligations.DecimalDigitsAreStored : Prop :=
  (∀ (v : Variant) (w : Word), w &&& 0xF0FF = 0xF033 → decode v w = .ldB (fieldX w)) ∧
  ∀ (x : Reg) (s : State), ∃ t, exec (.ldB x) s = .next t ∧
    (Memory.read t.mem s.i.toNat).toNat = (s.reg x).toNat / 100 ∧
    (Memory.read t.mem (s.i.toNat + 1)).toNat = (s.reg x).toNat / 10 % 10 ∧
    (Memory.read t.mem (s.i.toNat + 2)).toNat = (s.reg x).toNat % 10 ∧
    SameMemoryOutside (s.indexAddr 0) 3 s t ∧ SameRegsBut [] s t ∧ t = { s with mem := t.mem }

/-- `FX55` stores `V[0]` to `V[X]` at `I` upward; `I` advances by X + 1 on `CHIP8` only (R220), modulo 65536 (decision
D20, log entry 32). -/
def Obligations.RegisterBlockIsStored : Prop :=
  (∀ (v : Variant) (w : Word), w &&& 0xF0FF = 0xF055 → decode v w = .storeRegs (fieldX w)) ∧
  ∀ (x : Reg) (s : State), ∃ t, exec (.storeRegs x) s = .next t ∧
    (∀ r : Reg, r ≤ x → Memory.read t.mem (s.i.toNat + r.val) = s.reg r) ∧
    t.i.toNat = (if s.variant = .chip8 then (s.i.toNat + x.val + 1) % 65536 else s.i.toNat) ∧
    SameMemoryOutside (s.indexAddr 0) (x.val + 1) s t ∧ SameRegsBut [] s t ∧
    t = { s with mem := t.mem, i := t.i }

/-- `FX65` loads `V[0]` to `V[X]` from `I` upward; `I` advances by X + 1 on `CHIP8` only (R222), modulo 65536 (decision
D20, log entry 32). -/
def Obligations.RegisterBlockIsLoaded : Prop :=
  (∀ (v : Variant) (w : Word), w &&& 0xF0FF = 0xF065 → decode v w = .loadRegs (fieldX w)) ∧
  ∀ (x : Reg) (s : State), ∃ t, exec (.loadRegs x) s = .next t ∧
    (∀ r : Reg, r ≤ x → t.reg r = Memory.read s.mem (s.i.toNat + r.val)) ∧
    (∀ r : Reg, x < r → t.reg r = s.reg r) ∧
    t.i.toNat = (if s.variant = .chip8 then (s.i.toNat + x.val + 1) % 65536 else s.i.toNat) ∧
    SameMemory s t ∧ t = { s with v := t.v, i := t.i }

/-- Storing `V[0]` to `V[X]` and loading them from the same `I`, whatever the registers hold in between, gives the
stored values back (R220, R222; source §8 as vector S6). -/
def Obligations.StoreThenLoadRestoresRegisters : Prop :=
  ∀ (x : Reg) (s : State), ∃ t, exec (.storeRegs x) s = .next t ∧
    ∀ u : State, u.mem = t.mem → u.i = s.i → ∃ z, exec (.loadRegs x) u = .next z ∧
      (∀ r : Reg, r ≤ x → z.reg r = s.reg r) ∧ ∀ r : Reg, x < r → z.reg r = u.reg r

/-- `FX75` and `FX85` on `XOCHIP` move registers 0 to min(X, 7) to and from the flag file; with FLAGS_X_GT_7 = refuse a
transfer with X > 7 is refused (R224, R226, decision D9, log entry 17). That their meanings do nothing in a state of
another variant, which no decoded word reaches, is the model's own completion (log entry 24). -/
def Obligations.FlagFileTransfers : Prop :=
  ∀ (x : Reg) (s : State),
    (s.variant ≠ .xochip → exec (.storeFlags x) s = .next s ∧ exec (.loadFlags x) s = .next s) ∧
    (s.variant = .xochip → (x.val ≤ 7 ∨ s.cfg.flagsXGt7 = .clamp) →
      (∃ t, exec (.storeFlags x) s = .next t ∧
        (∀ r : Fin 8, t.flags[r.val] = if r.val ≤ x.val then s.reg (r.castLE (by decide)) else s.flags[r.val]) ∧
        SameRegsBut [] s t ∧ SameMemory s t ∧ t = { s with flags := t.flags }) ∧
      (∃ t, exec (.loadFlags x) s = .next t ∧
        (∀ r : Fin 8, r.val ≤ x.val → t.reg (r.castLE (by decide)) = s.flags[r.val]) ∧
        (∀ r : Reg, min x.val 7 < r.val → t.reg r = s.reg r) ∧ SameMemory s t ∧ t = { s with v := t.v })) ∧
    (s.variant = .xochip → 7 < x.val → s.cfg.flagsXGt7 = .refuse →
      exec (.storeFlags x) s = .refused .flagTransferTooLong ∧
      exec (.loadFlags x) s = .refused .flagTransferTooLong)

/-! ### Sprite compositor -/

/-- A draw completes, sets `displayed`, leaves `VF` 0 or 1, and changes nothing but `VF`, the display and `displayed`;
on `CHIP8` `DXY0` draws zero rows, which is a choice (decision D24, log entry 21): it changes no cell and still sets `VF`
to 0 (R230, R231, R238). -/
def Obligations.DrawCompletesAndKeepsItsFrame : Prop :=
  ∀ (x y : Reg) (n : Nibble) (s : State), ∃ t, exec (.drw x y n) s = .next t ∧
    t.displayed = true ∧ (t.reg 15 = 0 ∨ t.reg 15 = 1) ∧
    (s.variant = .chip8 → n = 0 → t.disp = s.disp ∧ t.reg 15 = 0) ∧
    SameRegsBut [15] s t ∧ SameMemory s t ∧ t = { s with v := t.v, disp := t.disp, displayed := true }

/-- What a draw does to every cell, on every variant and in both modes: a cell is toggled exactly if a 1 bit of the
sprite lands on it, clipped or wrapped, every such cell lies in the active window, and `VF` is 1 exactly if such a cell
was 1 (R230 to R237, R239; decisions D5, D6, D14, log entries 14, 15, 23). -/
def Obligations.DrawTogglesTheCoveredCells : Prop :=
  ∀ (x y : Reg) (n : Nibble) (s : State), ∃ t, exec (.drw x y n) s = .next t ∧
    (∀ cy cx, cy < 64 → cx < 128 →
      (Covered s x y n cy cx → Display.get t.disp cy cx = !Display.get s.disp cy cx) ∧
      (¬ Covered s x y n cy cx → Display.get t.disp cy cx = Display.get s.disp cy cx)) ∧
    (∀ cy cx, Covered s x y n cy cx → cy < s.height ∧ cx < s.width) ∧
    (t.reg 15 = 1 ↔ ∃ cy cx, Covered s x y n cy cx ∧ Display.get s.disp cy cx = true)

/-- Drawing the identical sprite twice at the same place returns the display to its prior state, and the second draw sets
`VF` exactly if a covered cell was 0 before the first (R240). Which cells are covered rests on choices (decisions D5, D6,
D14, log entries 14, 15, 23). Between the draws anything may change but the display, the
mode, the variant, the parameters, the memory, `I` and the two coordinate registers. -/
def Obligations.DrawingTwiceRestoresTheDisplay : Prop :=
  ∀ (x y : Reg) (n : Nibble) (s : State), ∃ t, exec (.drw x y n) s = .next t ∧
    ∀ u : State, u.disp = t.disp → u.hires = s.hires → u.variant = s.variant → u.cfg = s.cfg → u.mem = s.mem →
      u.i = s.i → u.reg x = s.reg x → u.reg y = s.reg y →
      ∃ z, exec (.drw x y n) u = .next z ∧ z.disp = s.disp ∧
        (z.reg 15 = 1 ↔ ∃ cy cx, Covered s x y n cy cx ∧ Display.get s.disp cy cx = false)

/-! ### Display control -/

/-- `00E0` clears all 64 × 128 cells of the storage and writes no flag (R140, decision D15, log entry 20). -/
def Obligations.ClearEmptiesTheWholeStorage : Prop :=
  ∀ s : State, ∃ t, exec .cls s = .next t ∧ (∀ y x, Display.get t.disp y x = false) ∧ OnlyDisplayChanges s t

/-- `00CN` moves the active window down by N rows, fills the vacated rows with 0 and leaves every cell outside the
window (R142, decision D12, log entry 19). That its meaning does nothing in a `CHIP8` state, which no decoded word
reaches, is the model's own completion (log entry 24). -/
def Obligations.ScrollDownMovesTheWindow : Prop :=
  ∀ (n : Nibble) (s : State),
    (s.variant = .chip8 → exec (.scd n) s = .next s) ∧
    (s.variant ≠ .chip8 → ∃ t, exec (.scd n) s = .next t ∧
      (∀ y x, y < s.height → x < s.width →
        Display.get t.disp y x = if n.toNat ≤ y then Display.get s.disp (y - n.toNat) x else false) ∧
      (∀ y x, ¬ (y < s.height ∧ x < s.width) → Display.get t.disp y x = Display.get s.disp y x) ∧
      OnlyDisplayChanges s t)

/-- `00FB` and `00FC` move the active window right and left by 4 columns, fill with 0 and leave every cell outside the
window (R145, R147, decision D12, log entry 19). -/
def Obligations.SidewaysScrollsMoveTheWindow : Prop :=
  ∀ s : State,
    (∃ t, exec .scr s = .next t ∧
      (∀ y x, y < s.height → x < s.width →
        Display.get t.disp y x = if 4 ≤ x then Display.get s.disp y (x - 4) else false) ∧
      (∀ y x, ¬ (y < s.height ∧ x < s.width) → Display.get t.disp y x = Display.get s.disp y x) ∧
      OnlyDisplayChanges s t) ∧
    (∃ t, exec .scl s = .next t ∧
      (∀ y x, y < s.height → x < s.width →
        Display.get t.disp y x = if x + 4 < s.width then Display.get s.disp y (x + 4) else false) ∧
      (∀ y x, ¬ (y < s.height ∧ x < s.width) → Display.get t.disp y x = Display.get s.disp y x) ∧
      OnlyDisplayChanges s t)

/-- `00FE` and `00FF` set the mode. With MODE_SWITCH_EFFECT = keep nothing else changes; with clear a real switch also
clears the storage; with havoc it leaves cells that the model leaves free (R150, R151, R152, decision D11, log entries 4
and 18). In the mode that is already active nothing changes. -/
def Obligations.ModeSwitches : Prop :=
  ∀ (s : State) (p : Instr × Bool), p ∈ [(Instr.low, false), (Instr.high, true)] →
    ∃ t, exec p.1 s = .next t ∧ t.hires = p.2 ∧
      (s.hires = p.2 → t = s) ∧
      (s.cfg.modeSwitchEffect = .keep → t = { s with hires := p.2 }) ∧
      (s.cfg.modeSwitchEffect = .clear → s.hires ≠ p.2 → ∀ y x, Display.get t.disp y x = false) ∧
      (s.cfg.modeSwitchEffect = .havoc → s.hires ≠ p.2 → t.draws = s.draws + 1 ∧
        ∀ y x, y < 64 → x < 128 → Display.get t.disp y x = Config.freeCell s.draws y x) ∧
      SameRegsBut [] s t ∧ SameMemory s t ∧ t = { s with hires := t.hires, disp := t.disp, draws := t.draws }

/-! ### Keypad -/

/-- `EX9E` and `EXA1` test the live key whose hex value is the low nibble of `V[X]`; exactly one of them skips (R252,
R254, R255, decision D10, log entry 26). The skip is a further 2 (decision D29, log entry 33). -/
def Obligations.KeySkipsTestTheNamedKey : Prop :=
  ∀ (x : Reg) (s : State) (j : KeyIndex), KeymapIsPermutation s.cfg →
    (s.cfg.keymap[j.val]).toNat = (s.reg x).toNat % 16 →
    (∃ t, exec (.skp x) s = .next t ∧ t.pc = (if s.key[j.val] = true then s.pc + 2 else s.pc) ∧ OnlyPcChanges s t) ∧
    (∃ t, exec (.sknp x) s = .next t ∧ t.pc = (if s.key[j.val] = true then s.pc else s.pc + 2) ∧ OnlyPcChanges s t)

/-- Every transition of `FX0A` (R258, decision D19, log entry 27): idle, it latches the least key of the snapshot, if
any, and repeats; latched, it completes on the release edge of the latched key and repeats otherwise. -/
def Obligations.KeyWaitIsATwoStateMachine : Prop :=
  ∀ (x : Reg) (s : State),
    (s.latch = none → ∃ t, exec (.ldVxK x) s = .next t ∧ t.pc = s.pc - 2 ∧
      (∀ j : KeyIndex, t.latch = some j ↔
        s.keyPrev[j.val] = true ∧ ∀ k : KeyIndex, k < j → s.keyPrev[k.val] = false) ∧
      SameRegsBut [] s t ∧ SameMemory s t ∧ t = { s with pc := t.pc, latch := t.latch }) ∧
    ∀ k : KeyIndex, s.latch = some k →
      (s.keyPrev[k.val] = true ∧ s.key[k.val] = false →
        ∃ t, exec (.ldVxK x) s = .next t ∧ (t.reg x).toNat = (s.cfg.keymap[k.val]).toNat ∧ t.latch = none ∧
          t.pc = s.pc ∧ SameRegsBut [x] s t ∧ SameMemory s t ∧ t = { s with v := t.v, latch := none }) ∧
      (¬ (s.keyPrev[k.val] = true ∧ s.key[k.val] = false) →
        ∃ t, exec (.ldVxK x) s = .next t ∧ t.pc = s.pc - 2 ∧ OnlyPcChanges s t)

/-- A waiting `FX0A` step changes at most `latch`, `displayed` and the snapshot (R262); a `pc` past the end of memory
becomes 0x0200, as in every step (R121, decision D1, log entry 10), and `displayed` is cleared (decision D21, log entry
25). -/
def Obligations.WaitingStepKeepsTheState : Prop :=
  ∀ (s : State) (x : Reg), s.nextInstr = .ldVxK x →
    (∀ k : KeyIndex, s.latch = some k → ¬ (s.keyPrev[k.val] = true ∧ s.key[k.val] = false)) →
    ∃ t, step s = .next t ∧ t = { s with
      pc := if 0x1000 ≤ s.pc.toNat then 0x0200 else s.pc
      latch := t.latch
      displayed := false
      keyPrev := s.key }

/-- A press, two or more steps, the release and one step complete `FX0A`: `V[X]` receives the mapped hex value and `pc`
advances exactly once (R259, R261; decision D19, log entry 27), from 0x0200 where it began past the end of memory
(decision D1, log entry 10). -/
def Obligations.PressAndReleaseEndTheWait : Prop :=
  ∀ (s : State) (x : Reg) (k : KeyIndex) (m : Nat),
    s.nextInstr = .ldVxK x → s.latch = none →
    (∀ j : KeyIndex, s.key[j.val] = false) → (∀ j : KeyIndex, s.keyPrev[j.val] = false) →
    ∃ t, runOps (.key k.val true :: List.replicate (m + 2) .step ++ [.key k.val false, .step]) s = .next t ∧
      (t.reg x).toNat = (s.cfg.keymap[k.val]).toNat ∧ t.latch = none ∧
      t.pc = (if 0x1000 ≤ s.pc.toNat then 0x0200 else s.pc) + 2 ∧
      SameRegsBut [x] s t ∧ SameMemory s t

/-! ### Timers -/

/-- R270, R271: `FX07` reads the delay timer and `FX15` writes it; `FX18` writes the sound timer (R272). Nothing else
changes. -/
def Obligations.TimerInstructions : Prop :=
  (∀ (v : Variant) (w : Word),
    (w &&& 0xF0FF = 0xF007 → decode v w = .ldVxDt (fieldX w)) ∧
    (w &&& 0xF0FF = 0xF015 → decode v w = .ldDtVx (fieldX w)) ∧
    (w &&& 0xF0FF = 0xF018 → decode v w = .ldStVx (fieldX w))) ∧
  ∀ (x : Reg) (s : State),
    (∃ t, exec (.ldVxDt x) s = .next t ∧ t.reg x = s.dt ∧ OnlyRegsChange [x] s t) ∧
    (∃ t, exec (.ldDtVx x) s = .next t ∧ t.dt = s.reg x ∧ SameRegsBut [] s t ∧ SameMemory s t ∧
      t = { s with dt := t.dt }) ∧
    (∃ t, exec (.ldStVx x) s = .next t ∧ t.st = s.reg x ∧ SameRegsBut [] s t ∧ SameMemory s t ∧
      t = { s with st := t.st })

/-- R296: TICK decrements each nonzero timer by 1, never below 0, and changes nothing else. -/
def Obligations.TickCountsBothTimersDown : Prop :=
  ∀ s : State, (s.tick).dt.toNat = s.dt.toNat - 1 ∧ (s.tick).st.toNat = s.st.toNat - 1 ∧
    s.tick = { s with dt := (s.tick).dt, st := (s.tick).st }

/-- After `n` ticks a timer that held `d` holds max(d - n, 0): it stops at 0 and does not wrap (R297). -/
def Obligations.TicksReachZeroAndStop : Prop :=
  ∀ (s : State) (n : Nat), (s.ticks n).dt.toNat = s.dt.toNat - n ∧ (s.ticks n).st.toNat = s.st.toNat - n

/-! ### The environment's operations -/

/-- KEY writes one live key and nothing else (R250), is refused above index 15 (R251, decision D23, log entry 28), and
commutes with TICK (R289). -/
def Obligations.KeyWritesOneLiveKey : Prop :=
  ∀ (s : State) (index : Nat) (pressed : Bool),
    (∀ h : index < 16, ∃ t, setKey index pressed s = .next t ∧ t.key[index] = pressed ∧
      (∀ j : KeyIndex, j.val ≠ index → t.key[j.val] = s.key[j.val]) ∧ t = { s with key := t.key } ∧
      setKey index pressed s.tick = .next t.tick) ∧
    (16 ≤ index → setKey index pressed s = .refused .keyIndexOutOfRange)

/-- LOAD_ROM copies at most 3584 bytes from 0x200 and changes no other byte and no other state (R324); a longer program
is refused, or truncated, as ROM_TOO_LARGE says (R325, decision D25, log entry 30). -/
def Obligations.LoadRomCopiesTheProgram : Prop :=
  (∀ (s : State) (bytes : List Byte), bytes.length ≤ 3584 → ∃ t, loadRom bytes s = .next t ∧
    (∀ k (h : k < bytes.length), Memory.read t.mem (0x200 + k) = bytes[k]) ∧
    SameMemoryOutside 0x200 bytes.length s t ∧ t = { s with mem := t.mem }) ∧
  ∀ (s : State) (bytes : List Byte), 3584 < bytes.length →
    (s.cfg.romTooLarge = .reject → loadRom bytes s = .refused .romTooLarge) ∧
    (s.cfg.romTooLarge = .truncate → loadRom bytes s = loadRom (bytes.take 3584) s)

/-- LOAD_FONT, at any LOWFONT_BASE and HIFONT_BASE, writes LOWFONT on every variant and then HIFONT on all but `CHIP8`,
so that HIFONT wins where the two tables overlap, and nothing else (R322). Where HIFONT is not given its bytes are free,
so the claim holds for every value of them (log entry 5). With the default bases (decision D2, log entry 11) the tables
lie at 0x000 and 0x050 and do not overlap. -/
def Obligations.LoadFontWritesTheGlyphs : Prop :=
  (∀ s : State,
    (s.variant ≠ .chip8 → ∀ k : Fin 160,
      Memory.read (loadFont s).mem (s.cfg.hifontBase.toNat + k.val) = (s.cfg.hifont.getD Config.freeHifont)[k.val]) ∧
    (∀ k : Fin 80,
      (s.variant = .chip8 ∨
        ∀ j : Fin 160, (s.cfg.lowfontBase.toNat + k.val) % 4096 ≠ (s.cfg.hifontBase.toNat + j.val) % 4096) →
      Memory.read (loadFont s).mem (s.cfg.lowfontBase.toNat + k.val) = s.cfg.lowfont[k.val]) ∧
    (∀ a, (∀ k : Fin 80, a % 4096 ≠ (s.cfg.lowfontBase.toNat + k.val) % 4096) →
      (s.variant = .chip8 ∨ ∀ j : Fin 160, a % 4096 ≠ (s.cfg.hifontBase.toNat + j.val) % 4096) →
      Memory.read (loadFont s).mem a = Memory.read s.mem a) ∧
    loadFont s = { s with mem := (loadFont s).mem }) ∧
  ∀ s : State, s.cfg.lowfontBase = 0x000 → s.cfg.hifontBase = 0x050 →
    (∀ k : Fin 80, Memory.read (loadFont s).mem k.val = s.cfg.lowfont[k.val]) ∧
    (s.variant = .chip8 → SameMemoryOutside 0x000 80 s (loadFont s)) ∧
    SameMemoryOutside 0x000 240 s (loadFont s)

/-- The state after CREATE: `pc` 0x0200, timers 0, empty stack and the variant are the source's; every other value is
the spec's decision D8 (R39, R320, log entry 2). -/
def Obligations.CreateGivesTheResetValues : Prop :=
  ∀ (p : Params) (v : Variant),
    let s := State.create p v
    (s.pc = 0x0200 ∧ s.dt = 0 ∧ s.st = 0 ∧ s.stack = [] ∧ s.variant = v) ∧
    (∀ r, s.reg r = 0) ∧ s.i = 0 ∧ (∀ a, Memory.read s.mem a = 0) ∧ (∀ y x, Display.get s.disp y x = false) ∧
    s.hires = false ∧ (∀ j : KeyIndex, s.key[j.val] = false ∧ s.keyPrev[j.val] = false) ∧ s.latch = none ∧
    (∀ j : Fin 8, s.flags[j.val] = 0) ∧ s.displayed = false ∧ s.cfg = p

/-- GET_DISPLAY returns the `W * H` cells of the active window in row-major order (R302, decision D17, log entry 29),
where `W × H` is 128 × 64 in hi-res and 64 × 32 in lo-res (R31). -/
def Obligations.DisplayOutputIsTheWindowRowByRow : Prop :=
  ∀ s : State,
    (s.getDisplay).length = (if s.hires = true then 128 * 64 else 64 * 32) ∧
    ∀ y x, y < s.height → x < s.width → s.getDisplay[y * s.width + x]? = some (Display.get s.disp y x)
end

