-- ==== Sys2Proof/Laws/Decode.lean ====
section
/-! SUPPORT. The fields of a word, the words of fields, and what the masks of the opcode table read. -/

namespace Sys2Proof

/-! ### The fields as numbers (R91) -/

theorem fieldA_toNat (w : Word) : (fieldA w).toNat = w.toNat / 4096 := by
  have := w.isLt
  simp only [fieldA, BitVec.extractLsb'_toNat, Nat.shiftRight_eq_div_pow]
  omega

theorem fieldX_val (w : Word) : (fieldX w).val = w.toNat / 256 % 16 := by
  simp only [fieldX, regOf, BitVec.val_toFin, BitVec.extractLsb'_toNat, Nat.shiftRight_eq_div_pow, Nat.reducePow]

theorem fieldY_val (w : Word) : (fieldY w).val = w.toNat / 16 % 16 := by
  simp only [fieldY, regOf, BitVec.val_toFin, BitVec.extractLsb'_toNat, Nat.shiftRight_eq_div_pow, Nat.reducePow]

theorem fieldN_toNat (w : Word) : (fieldN w).toNat = w.toNat % 16 := by
  simp only [fieldN, BitVec.extractLsb'_toNat, Nat.shiftRight_eq_div_pow, Nat.pow_zero, Nat.div_one, Nat.reducePow]

theorem fieldNN_toNat (w : Word) : (fieldNN w).toNat = w.toNat % 256 := by
  simp only [fieldNN, BitVec.extractLsb'_toNat, Nat.shiftRight_eq_div_pow, Nat.pow_zero, Nat.div_one, Nat.reducePow]

theorem fieldNNN_toNat (w : Word) : (fieldNNN w).toNat = w.toNat % 4096 := by
  simp only [fieldNNN, BitVec.extractLsb'_toNat, Nat.shiftRight_eq_div_pow, Nat.pow_zero, Nat.div_one, Nat.reducePow]

/-! ### The words as numbers -/

theorem append_toNat {n m : Nat} (a : BitVec n) (b : BitVec m) : (a ++ b).toNat = a.toNat * 2 ^ m + b.toNat := by
  rw [BitVec.toNat_append, ← Nat.shiftLeft_add_eq_or_of_lt b.isLt, Nat.shiftLeft_eq]

theorem regBits_toNat (x : Reg) : (regBits x).toNat = x.val := rfl

@[simp] theorem regBits_regOf (b : Nibble) : regBits (regOf b) = b := rfl

@[simp] theorem regOf_regBits (x : Reg) : regOf (regBits x) = x := rfl

theorem wordNNN_toNat (a : Nibble) (nnn : Addr) : (wordNNN a nnn).toNat = 4096 * a.toNat + nnn.toNat := by
  simp only [wordNNN, append_toNat]; omega

theorem wordXNN_toNat (a : Nibble) (x : Reg) (nn : Byte) :
    (wordXNN a x nn).toNat = 4096 * a.toNat + 256 * x.val + nn.toNat := by
  simp only [wordXNN, append_toNat, regBits_toNat]; omega

theorem wordXYN_toNat (a : Nibble) (x y : Reg) (n : Nibble) :
    (wordXYN a x y n).toNat = 4096 * a.toNat + 256 * x.val + 16 * y.val + n.toNat := by
  simp only [wordXYN, append_toNat, regBits_toNat]; omega

/-! ### Fields of a built word -/

@[simp] theorem fieldA_wordNNN (a : Nibble) (nnn : Addr) : fieldA (wordNNN a nnn) = a := by
  have := nnn.isLt
  apply BitVec.eq_of_toNat_eq; rw [fieldA_toNat, wordNNN_toNat]; omega

@[simp] theorem fieldNNN_wordNNN (a : Nibble) (nnn : Addr) : fieldNNN (wordNNN a nnn) = nnn := by
  have := nnn.isLt
  apply BitVec.eq_of_toNat_eq; rw [fieldNNN_toNat, wordNNN_toNat]; omega

@[simp] theorem fieldA_wordXNN (a : Nibble) (x : Reg) (nn : Byte) : fieldA (wordXNN a x nn) = a := by
  have := nn.isLt; have := x.isLt
  apply BitVec.eq_of_toNat_eq; rw [fieldA_toNat, wordXNN_toNat]; omega

@[simp] theorem fieldX_wordXNN (a : Nibble) (x : Reg) (nn : Byte) : fieldX (wordXNN a x nn) = x := by
  have := nn.isLt; have := x.isLt
  apply Fin.ext; rw [fieldX_val, wordXNN_toNat]; omega

@[simp] theorem fieldNN_wordXNN (a : Nibble) (x : Reg) (nn : Byte) : fieldNN (wordXNN a x nn) = nn := by
  have := nn.isLt; have := x.isLt
  apply BitVec.eq_of_toNat_eq; rw [fieldNN_toNat, wordXNN_toNat]; omega

@[simp] theorem fieldA_wordXYN (a : Nibble) (x y : Reg) (n : Nibble) : fieldA (wordXYN a x y n) = a := by
  have := n.isLt; have := x.isLt; have := y.isLt
  apply BitVec.eq_of_toNat_eq; rw [fieldA_toNat, wordXYN_toNat]; omega

@[simp] theorem fieldX_wordXYN (a : Nibble) (x y : Reg) (n : Nibble) : fieldX (wordXYN a x y n) = x := by
  have := n.isLt; have := x.isLt; have := y.isLt
  apply Fin.ext; rw [fieldX_val, wordXYN_toNat]; omega

@[simp] theorem fieldY_wordXYN (a : Nibble) (x y : Reg) (n : Nibble) : fieldY (wordXYN a x y n) = y := by
  have := n.isLt; have := x.isLt; have := y.isLt
  apply Fin.ext; rw [fieldY_val, wordXYN_toNat]; omega

@[simp] theorem fieldN_wordXYN (a : Nibble) (x y : Reg) (n : Nibble) : fieldN (wordXYN a x y n) = n := by
  have := n.isLt; have := x.isLt; have := y.isLt
  apply BitVec.eq_of_toNat_eq; rw [fieldN_toNat, wordXYN_toNat]; omega

/-! ### A word is built from its fields -/

theorem word_eq_wordNNN (w : Word) : wordNNN (fieldA w) (fieldNNN w) = w := by
  apply BitVec.eq_of_toNat_eq; rw [wordNNN_toNat, fieldA_toNat, fieldNNN_toNat]; omega

theorem word_eq_wordXNN (w : Word) : wordXNN (fieldA w) (fieldX w) (fieldNN w) = w := by
  apply BitVec.eq_of_toNat_eq; rw [wordXNN_toNat, fieldA_toNat, fieldX_val, fieldNN_toNat]; omega

theorem word_eq_wordXYN (w : Word) : wordXYN (fieldA w) (fieldX w) (fieldY w) (fieldN w) = w := by
  apply BitVec.eq_of_toNat_eq; rw [wordXYN_toNat, fieldA_toNat, fieldX_val, fieldY_val, fieldN_toNat]; omega

/-! ### What a mask reads -/

theorem mask_F000 (w : Word) : w &&& 0xF000 = fieldA w ++ (0 : BitVec 12) := by
  apply BitVec.eq_of_getLsbD_eq
  intro i hi
  simp only [BitVec.getLsbD_and, BitVec.getLsbD_append, fieldA, BitVec.getLsbD_extractLsb',
    BitVec.ofNat_eq_ofNat, BitVec.getLsbD_ofNat, Nat.testBit_eq_decide_div_mod_eq]
  interval_cases i <;> simp

theorem mask_F00F (w : Word) : w &&& 0xF00F = fieldA w ++ (0 : BitVec 8) ++ fieldN w := by
  apply BitVec.eq_of_getLsbD_eq
  intro i hi
  simp only [BitVec.getLsbD_and, BitVec.getLsbD_append, fieldA, fieldN, BitVec.getLsbD_extractLsb',
    BitVec.ofNat_eq_ofNat, BitVec.getLsbD_ofNat, Nat.testBit_eq_decide_div_mod_eq]
  interval_cases i <;> simp

theorem mask_F0FF (w : Word) : w &&& 0xF0FF = fieldA w ++ (0 : BitVec 4) ++ fieldNN w := by
  apply BitVec.eq_of_getLsbD_eq
  intro i hi
  simp only [BitVec.getLsbD_and, BitVec.getLsbD_append, fieldA, fieldNN, BitVec.getLsbD_extractLsb',
    BitVec.ofNat_eq_ofNat, BitVec.getLsbD_ofNat, Nat.testBit_eq_decide_div_mod_eq]
  interval_cases i <;> simp

theorem mask_FFF0 (w : Word) : w &&& 0xFFF0 = w.extractLsb' 4 12 ++ (0 : BitVec 4) := by
  apply BitVec.eq_of_getLsbD_eq
  intro i hi
  simp only [BitVec.getLsbD_and, BitVec.getLsbD_append, BitVec.getLsbD_extractLsb',
    BitVec.ofNat_eq_ofNat, BitVec.getLsbD_ofNat, Nat.testBit_eq_decide_div_mod_eq]
  interval_cases i <;> simp

theorem mask_FFFF (w : Word) : w &&& 0xFFFF = w := by
  rw [show (0xFFFF : Word) = BitVec.allOnes 16 from rfl, BitVec.and_allOnes]

/-- The mask of one fixed digit. -/
theorem mask_F000_eq {w : Word} {a : Nibble} : w &&& 0xF000 = a ++ (0 : BitVec 12) ↔ fieldA w = a := by
  rw [mask_F000]
  constructor
  · intro h
    have h1 := congrArg BitVec.toNat h
    simp only [append_toNat] at h1
    apply BitVec.eq_of_toNat_eq; omega
  · rintro rfl; rfl

/-- The mask of the first and the last digit. -/
theorem mask_F00F_eq {w : Word} {a n : Nibble} :
    w &&& 0xF00F = a ++ (0 : BitVec 8) ++ n ↔ fieldA w = a ∧ fieldN w = n := by
  rw [mask_F00F]
  constructor
  · intro h
    have h1 := congrArg BitVec.toNat h
    have := n.isLt; have := (fieldN w).isLt
    simp only [append_toNat, BitVec.ofNat_eq_ofNat, BitVec.toNat_ofNat] at h1
    constructor <;> apply BitVec.eq_of_toNat_eq <;> omega
  · rintro ⟨rfl, rfl⟩; rfl

/-- The mask of all digits but the second. -/
theorem mask_F0FF_eq {w : Word} {a : Nibble} {nn : Byte} :
    w &&& 0xF0FF = a ++ (0 : BitVec 4) ++ nn ↔ fieldA w = a ∧ fieldNN w = nn := by
  rw [mask_F0FF]
  constructor
  · intro h
    have h1 := congrArg BitVec.toNat h
    have := nn.isLt; have := (fieldNN w).isLt
    simp only [append_toNat, BitVec.ofNat_eq_ofNat, BitVec.toNat_ofNat] at h1
    constructor <;> apply BitVec.eq_of_toNat_eq <;> omega
  · rintro ⟨rfl, rfl⟩; rfl

/-! ### Decoding by the leading nibble -/

/-- A nibble is one of sixteen digits. -/
theorem nibble_cases (a : Nibble) :
    a = 0x0 ∨ a = 0x1 ∨ a = 0x2 ∨ a = 0x3 ∨ a = 0x4 ∨ a = 0x5 ∨ a = 0x6 ∨ a = 0x7 ∨
    a = 0x8 ∨ a = 0x9 ∨ a = 0xA ∨ a = 0xB ∨ a = 0xC ∨ a = 0xD ∨ a = 0xE ∨ a = 0xF := by
  revert a; decide

variable {v : Variant} {w : Word}

theorem decode_0 (h : fieldA w = 0x0) : decode v w = decodeSystem v w := by
  simp [decode, h]

theorem decode_1 (h : fieldA w = 0x1) : decode v w = .jp (fieldNNN w) := by
  simp [decode, h]

theorem decode_2 (h : fieldA w = 0x2) : decode v w = .call (fieldNNN w) := by
  simp [decode, h]

theorem decode_3 (h : fieldA w = 0x3) : decode v w = .seImm (fieldX w) (fieldNN w) := by
  simp [decode, h]

theorem decode_4 (h : fieldA w = 0x4) : decode v w = .sneImm (fieldX w) (fieldNN w) := by
  simp [decode, h]

theorem decode_5 (h : fieldA w = 0x5) : decode v w = if fieldN w == 0#4 then .seReg (fieldX w) (fieldY w) else .unmatched w := by
  simp [decode, h]

theorem decode_6 (h : fieldA w = 0x6) : decode v w = .ldImm (fieldX w) (fieldNN w) := by
  simp [decode, h]

theorem decode_7 (h : fieldA w = 0x7) : decode v w = .addImm (fieldX w) (fieldNN w) := by
  simp [decode, h]

theorem decode_8 (h : fieldA w = 0x8) : decode v w = decodeAlu w := by
  simp [decode, h]

theorem decode_9 (h : fieldA w = 0x9) : decode v w = if fieldN w == 0#4 then .sneReg (fieldX w) (fieldY w) else .unmatched w := by
  simp [decode, h]

theorem decode_A (h : fieldA w = 0xA) : decode v w = .ldI (fieldNNN w) := by
  simp [decode, h]

theorem decode_B (h : fieldA w = 0xB) : decode v w = .jpV0 (fieldNNN w) := by
  simp [decode, h]

theorem decode_C (h : fieldA w = 0xC) : decode v w = .rnd (fieldX w) (fieldNN w) := by
  simp [decode, h]

theorem decode_D (h : fieldA w = 0xD) : decode v w = .drw (fieldX w) (fieldY w) (fieldN w) := by
  simp [decode, h]

theorem decode_E (h : fieldA w = 0xE) : decode v w = decodeKey w := by
  simp [decode, h]

theorem decode_F (h : fieldA w = 0xF) : decode v w = decodeMisc v w := by
  simp [decode, h]

end Sys2Proof
end

