-- ==== Sys2Proof/Laws/Display.lean ====
section
/-! SUPPORT. The display storage: cell after write, window moves, and the closed form of toggling a list of cells. -/

namespace Sys2Proof.Machine

/-! ### Cells -/

theorem Display.get_eq {y x : Nat} (d : Display) (hy : y < 64) (hx : x < 128) : Display.get d y x = d[y][x] := by
  simp only [Display.get, hy, hx, and_self, dite_true]

/-- A cell outside the storage is 0. -/
theorem Display.get_outside (d : Display) {y x : Nat} (h : ¬ (y < 64 ∧ x < 128)) : Display.get d y x = false := by
  simp only [Display.get, h, dite_false]

/-- Displays that agree on every cell are equal. -/
theorem Display.ext {d e : Display} (h : ∀ y x, y < 64 → x < 128 → Display.get d y x = Display.get e y x) : d = e := by
  apply Vector.ext
  intro y hy
  apply Vector.ext
  intro x hx
  rw [← Display.get_eq d hy hx, ← Display.get_eq e hy hx]
  exact h y x hy hx

theorem Display.get_build (f : Nat → Nat → Bool) (y x : Nat) :
    Display.get (Display.build f) y x = if y < 64 ∧ x < 128 then f y x else false := by
  by_cases h : y < 64 ∧ x < 128
  · rw [Display.get_eq _ h.1 h.2, if_pos h]
    simp only [Display.build, Vector.getElem_ofFn]
  · rw [Display.get_outside _ h, if_neg h]

@[simp] theorem Display.get_blank (y x : Nat) : Display.get Display.blank y x = false := by
  simp only [Display.blank, Display.get_build, ite_self]

theorem Display.get_put (d : Display) (y x cy cx : Nat) (b : Bool) :
    Display.get (Display.put d y x b) cy cx =
      if y < 64 ∧ x < 128 ∧ y = cy ∧ x = cx then b else Display.get d cy cx := by
  by_cases h : y < 64 ∧ x < 128
  · by_cases hc : cy < 64 ∧ cx < 128
    · rw [Display.get_eq _ hc.1 hc.2, Display.get_eq _ hc.1 hc.2]
      simp only [Display.put, h, and_self, dite_true, true_and, Vector.getElem_set]
      by_cases hy : y = cy
      · subst hy
        simp only [if_true, true_and, Vector.getElem_set]
      · simp only [hy, if_false, false_and]
    · rw [Display.get_outside _ hc, Display.get_outside _ hc, if_neg]
      rintro ⟨h1, h2, rfl, rfl⟩
      exact hc ⟨h1, h2⟩
  · rw [if_neg (by tauto)]
    simp only [Display.put, h, dite_false]

/-! ### Windows -/

/-- A window of the storage moves, and every other cell stays. -/
theorem Display.get_mapWindow (d : Display) (w h : Nat) (f : Nat → Nat → Bool) (y x : Nat) (hw : w ≤ 128) (hh : h ≤ 64) :
    Display.get (Display.mapWindow d w h f) y x = if y < h ∧ x < w then f y x else Display.get d y x := by
  rw [Display.mapWindow, Display.get_build]
  by_cases hin : y < 64 ∧ x < 128
  · rw [if_pos hin]
  · rw [if_neg hin, if_neg (by omega), Display.get_outside _ hin]

theorem State.width_le (s : State) : s.width ≤ 128 := by unfold State.width; split <;> decide

theorem State.height_le (s : State) : s.height ≤ 64 := by unfold State.height; split <;> decide

theorem State.width_pos (s : State) : 64 ≤ s.width := by unfold State.width; split <;> decide

theorem State.height_pos (s : State) : 32 ≤ s.height := by unfold State.height; split <;> decide

/-! ### Toggling a list of distinct cells (R234, R235) -/

/-- The fold's accumulator: a display, and whether a lit cell has been hit. -/
theorem toggle_fold (cells : List (Nat × Nat)) (d : Display) (hit : Bool) (hnd : cells.Nodup)
    (hin : ∀ c ∈ cells, c.1 < 64 ∧ c.2 < 128) :
    (∀ y x, Display.get (cells.foldl toggleCell (d, hit)).1 y x =
      if (y, x) ∈ cells then !Display.get d y x else Display.get d y x) ∧
    ((cells.foldl toggleCell (d, hit)).2 = true ↔ hit = true ∨ ∃ c ∈ cells, Display.get d c.1 c.2 = true) := by
  induction cells generalizing d hit with
  | nil => simp
  | cons c rest ih =>
    obtain ⟨cy, cx⟩ := c
    obtain ⟨hnot, hrest⟩ := List.nodup_cons.mp hnd
    have hc : cy < 64 ∧ cx < 128 := hin (cy, cx) (by simp)
    have hput : ∀ y x, Display.get (Display.put d cy cx (!Display.get d cy cx)) y x =
        if (y, x) = (cy, cx) then !Display.get d y x else Display.get d y x := by
      intro y x
      rw [Display.get_put]
      by_cases h : (y, x) = (cy, cx)
      · obtain ⟨rfl, rfl⟩ := Prod.mk.inj h
        simp [hc]
      · rw [if_neg h, if_neg (fun e => h (by rw [e.2.2.1, e.2.2.2]))]
    obtain ⟨hget, hhit⟩ := ih (Display.put d cy cx (!Display.get d cy cx)) (hit || Display.get d cy cx) hrest
      fun c h => hin c (by simp [h])
    constructor
    · intro y x
      simp only [List.foldl_cons, toggleCell, List.mem_cons]
      rw [hget, hput]
      by_cases h : (y, x) = (cy, cx)
      · rw [h] at *
        simp [hnot]
      · simp [h]
    · simp only [List.foldl_cons, toggleCell, List.mem_cons, exists_eq_or_imp]
      rw [hhit]
      have : (∃ c ∈ rest, Display.get (Display.put d cy cx (!Display.get d cy cx)) c.1 c.2 = true) ↔
          ∃ c ∈ rest, Display.get d c.1 c.2 = true := by
        refine exists_congr fun c => and_congr_right fun hmem => ?_
        rw [hput, if_neg fun (e : (c.1, c.2) = (cy, cx)) => hnot (by rw [← e]; exact hmem)]
      rw [this, Bool.or_eq_true, or_assoc]

theorem compose_spec (d : Display) (cells : List (Nat × Nat)) (hnd : cells.Nodup)
    (hin : ∀ c ∈ cells, c.1 < 64 ∧ c.2 < 128) :
    (∀ y x, Display.get (compose d cells).1 y x = if (y, x) ∈ cells then !Display.get d y x else Display.get d y x) ∧
    ((compose d cells).2 = true ↔ ∃ c ∈ cells, Display.get d c.1 c.2 = true) := by
  simpa [compose] using toggle_fold cells d false hnd hin

end Sys2Proof.Machine
end

