-- ==== Sys2Proof/Laws/Draw.lean ====
section
/-! SUPPORT. The cells a draw toggles: exactly the covered ones, each once, all in the active window (R232 to R239). -/

namespace Sys2Proof.Machine

variable {s : State} {x y : Reg} {n : Nibble}

theorem State.spriteRows_le (s : State) (n : Nibble) : s.spriteRows n ≤ 16 := by
  unfold State.spriteRows
  split
  · exact le_refl _
  · have := n.isLt; omega

theorem State.spriteCols_le (s : State) (n : Nibble) : s.spriteCols n ≤ 16 := by
  unfold State.spriteCols; split <;> decide

/-- A pixel lands inside its axis, and on an axis of at least 16 cells no two of 16 pixels land on one cell. -/
theorem placeOnAxis_spec {clips : Bool} {size start k c : Nat} (hsize : 16 ≤ size) (hk : k < 16)
    (h : placeOnAxis clips size start k = some c) :
    c < size ∧ ∀ q < 16, placeOnAxis clips size start q = some c → q = k := by
  have hmod := Nat.mod_lt start (show 0 < size by omega)
  unfold placeOnAxis at h ⊢
  generalize start % size = p at h hmod ⊢
  cases clips with
  | true =>
    rw [if_pos rfl] at h
    refine ⟨?_, fun q _ hq => ?_⟩
    · split at h
      · rw [← Option.some.inj h]; assumption
      · cases h
    · rw [if_pos rfl] at hq
      split at h
      · split at hq
        · have := Option.some.inj h; have := Option.some.inj hq; omega
        · cases hq
      · cases h
  | false =>
    rw [if_neg (by decide)] at h
    have hc := Option.some.inj h
    have wrap : ∀ j < 16, (p + j) % size = if p + j < size then p + j else p + j - size := by
      intro j hj
      split
      · exact Nat.mod_eq_of_lt ‹_›
      · rw [Nat.mod_eq_sub_mod (by omega), Nat.mod_eq_of_lt (by omega)]
    refine ⟨hc ▸ Nat.mod_lt _ (by omega), fun q hq he => ?_⟩
    rw [if_neg (by decide)] at he
    have hc' := Option.some.inj he
    rw [wrap _ hk] at hc
    rw [wrap _ hq] at hc'
    split at hc <;> split at hc' <;> omega

theorem State.spriteY_spec {r cy : Nat} (hr : r < 16) (h : s.spriteY y r = some cy) :
    cy < s.height ∧ ∀ q < 16, s.spriteY y q = some cy → q = r :=
  placeOnAxis_spec (by have := s.height_pos; omega) hr h

theorem State.spriteX_spec {c cx : Nat} (hc : c < 16) (h : s.spriteX x c = some cx) :
    cx < s.width ∧ ∀ q < 16, s.spriteX x q = some cx → q = c :=
  placeOnAxis_spec (by have := s.width_pos; omega) hc h

/-- A cell of one sprite row, by the sprite column that lands on it. -/
theorem State.mem_rowCells {r cy cx : Nat} :
    (cy, cx) ∈ s.rowCells x y n r ↔
      ∃ c < s.spriteCols n, s.spriteBit n r c = true ∧ s.spriteY y r = some cy ∧ s.spriteX x c = some cx := by
  simp only [State.rowCells, List.mem_filterMap, List.mem_range]
  refine exists_congr fun c => and_congr_right fun _ => ?_
  by_cases hb : s.spriteBit n r c = true
  · simp only [hb, if_true, true_and]
    cases s.spriteY y r <;> cases s.spriteX x c <;> simp
  · simp [hb]

theorem State.mem_drawCells {cy cx : Nat} :
    (cy, cx) ∈ s.drawCells x y n ↔
      ∃ r < s.spriteRows n, ∃ c < s.spriteCols n,
        s.spriteBit n r c = true ∧ s.spriteY y r = some cy ∧ s.spriteX x c = some cx := by
  simp only [State.drawCells, List.mem_flatMap, List.mem_range, State.mem_rowCells]

theorem State.rowCells_nodup (r : Nat) : (s.rowCells x y n r).Nodup := by
  refine List.pairwise_filterMap.mpr (List.Pairwise.imp_of_mem ?_ List.nodup_range)
  intro c q hc hq hne a ha b hb hab
  have lands : ∀ k (cell : Nat × Nat), (if s.spriteBit n r k = true then
      match s.spriteY y r, s.spriteX x k with
      | some cy, some cx => some (cy, cx)
      | _, _ => none
      else none) = some cell → s.spriteX x k = some cell.2 := by
    intro k cell h
    split at h
    · cases hy : s.spriteY y r <;> cases hx : s.spriteX x k <;> simp_all
      rw [← h]
    · exact absurd h (by simp)
  have hcols := s.spriteCols_le n
  rw [List.mem_range] at hc hq
  exact hne ((State.spriteX_spec (by omega) (lands q b hb)).2 c (by omega) (hab ▸ lands c a ha))

/-- No cell is hit twice in one draw (R237). -/
theorem State.drawCells_nodup : (s.drawCells x y n).Nodup := by
  refine List.nodup_flatMap.mpr ⟨fun r _ => State.rowCells_nodup r, List.Pairwise.imp_of_mem ?_ List.nodup_range⟩
  rintro r q hr hq hne ⟨cy, cx⟩ hcr hcq
  obtain ⟨_, _, _, hyr, _⟩ := State.mem_rowCells.mp hcr
  obtain ⟨_, _, _, hyq, _⟩ := State.mem_rowCells.mp hcq
  have hrows := s.spriteRows_le n
  rw [List.mem_range] at hr hq
  exact hne ((State.spriteY_spec (by omega) hyq).2 r (by omega) hyr)

/-- Every toggled cell lies in the active window (R239). -/
theorem State.drawCells_window {cy cx : Nat} (h : (cy, cx) ∈ s.drawCells x y n) : cy < s.height ∧ cx < s.width := by
  obtain ⟨r, hr, c, hc, _, hy, hx⟩ := State.mem_drawCells.mp h
  have hrows := s.spriteRows_le n
  have hcols := s.spriteCols_le n
  exact ⟨(State.spriteY_spec (by omega) hy).1, (State.spriteX_spec (by omega) hx).1⟩

/-! ### The toggled cells are the covered ones -/

theorem spriteBit_iff {r c : Nat} :
    (r < s.spriteRows n ∧ c < s.spriteCols n ∧ s.spriteBit n r c = true) ↔ SpritePixel s n r c := by
  have hbig : s.bigSprite n = true ↔ n = 0 ∧ s.variant ≠ .chip8 := by
    unfold State.bigSprite
    cases s.variant <;> simp [Variant.isSuper]
  unfold SpritePixel State.spriteRows State.spriteCols State.spriteBit State.indexAddr
  by_cases hb : s.bigSprite n = true
  · rw [if_pos hb, if_pos hb, if_pos hb, if_pos (hbig.mp hb)]
    refine and_congr_right fun _ => and_congr_right fun hc => ?_
    simp only [Memory.read2, wordOfBytes, BitVec.getLsbD_append]
    by_cases h8 : c < 8
    · rw [if_pos h8, if_neg (by omega), show 15 - c - 8 = 7 - c by omega]
    · rw [if_neg h8, if_pos (by omega), Nat.add_assoc]
  · rw [if_neg hb, if_neg hb, if_neg hb, if_neg (fun h => hb (hbig.mpr h))]

theorem landsOn_iff {r c cy cx : Nat} :
    (s.spriteY y r = some cy ∧ s.spriteX x c = some cx) ↔ LandsOn s x y r c cy cx := by
  unfold LandsOn State.spriteY State.spriteX placeOnAxis
  cases s.cfg.clips s.variant with
  | true =>
    simp only [if_true]
    split <;> split <;> simp <;> omega
  | false => simp [eq_comm]

theorem State.mem_drawCells_iff_covered {cy cx : Nat} : (cy, cx) ∈ s.drawCells x y n ↔ Covered s x y n cy cx := by
  rw [State.mem_drawCells]
  constructor
  · rintro ⟨r, hr, c, hc, hb, hland⟩
    exact ⟨r, c, spriteBit_iff.mp ⟨hr, hc, hb⟩, landsOn_iff.mp hland⟩
  · rintro ⟨r, c, hpix, hland⟩
    obtain ⟨hr, hc, hb⟩ := spriteBit_iff.mpr hpix
    exact ⟨r, hr, c, hc, hb, landsOn_iff.mpr hland⟩

end Sys2Proof.Machine
end

