-- ==== Sys2Proof/Laws/Memory.lean ====
section
/-! SUPPORT. Memory: read after write for every memory, the canonical form, blocks of bytes. -/

namespace Sys2Proof.Machine

/-! ### The cells -/

theorem Memory.lookup_erase (m : Memory) (a c : Nat) :
    Memory.lookup (Memory.erase m a) c = if a = c then Memory.unlisted else Memory.lookup m c := by
  induction m with
  | nil => simp [Memory.erase, Memory.lookup]
  | cons e rest ih =>
    obtain ⟨k, b⟩ := e
    simp only [Memory.erase, Memory.lookup, List.filter_cons, bne_iff_ne] at ih ⊢
    by_cases hka : k = a
    · subst hka; simp only [ne_eq, not_true_eq_false, if_false, ih]
      by_cases hkc : k = c <;> simp [hkc]
    · simp only [ne_eq, hka, not_false_eq_true, if_true, Memory.lookup, ih]
      by_cases hkc : k = c
      · subst hkc; simp [Ne.symm hka]
      · simp [hkc]

theorem Memory.lookup_insertCell (m : Memory) (a c : Nat) (b : Byte) (h : Memory.lookup m a = Memory.unlisted)
    (hm : ∀ cell ∈ m, cell.1 ≠ a) :
    Memory.lookup (Memory.insertCell m a b) c = if a = c then b else Memory.lookup m c := by
  induction m with
  | nil => simp [Memory.insertCell, Memory.lookup]
  | cons e rest ih =>
    obtain ⟨k, d⟩ := e
    have hka : k ≠ a := hm (k, d) (by simp)
    have hrest := ih (by simpa [Memory.lookup, hka] using h) fun cell hc => hm cell (by simp [hc])
    simp only [Memory.insertCell]
    split
    · simp [Memory.lookup]
    · simp only [Memory.lookup, hrest]
      by_cases hkc : k = c
      · subst hkc; simp [Ne.symm hka]
      · simp [hkc]

theorem Memory.lookup_put (m : Memory) (a c : Nat) (b : Byte) :
    Memory.lookup (Memory.put m a b) c = if a = c then b else Memory.lookup m c := by
  unfold Memory.put
  split
  · subst b; exact Memory.lookup_erase m a c
  · rw [Memory.lookup_insertCell _ _ _ _ (by simp [Memory.lookup_erase])
      (by intro cell hc; simpa [Memory.erase] using (List.mem_filter.mp hc).2), Memory.lookup_erase]
    split <;> simp [*]

/-! ### Reads and writes (R16) -/

theorem Memory.read_mod (m : Memory) (a : Nat) : Memory.read m (a % 4096) = Memory.read m a := by
  simp [Memory.read, Memory.size]

/-- Reads depend on the address modulo 4096 only. -/
theorem Memory.read_congr (m : Memory) {a b : Nat} (h : a % 4096 = b % 4096) : Memory.read m a = Memory.read m b := by
  rw [← Memory.read_mod m a, h, Memory.read_mod]

theorem Memory.read_write (m : Memory) (a b : Nat) (c : Byte) :
    Memory.read (Memory.write m a c) b = if a % 4096 = b % 4096 then c else Memory.read m b :=
  Memory.lookup_put m _ _ c

@[simp] theorem Memory.read_nil (a : Nat) : Memory.read [] a = 0 := rfl

/-! ### Blocks (R66) -/

/-- A block write leaves every byte outside the block. -/
theorem Memory.read_writeBlock_outside (m : Memory) (a c : Nat) (bytes : List Byte)
    (h : ∀ k, k < bytes.length → c % 4096 ≠ (a + k) % 4096) :
    Memory.read (Memory.writeBlock m a bytes) c = Memory.read m c := by
  induction bytes generalizing m a with
  | nil => rfl
  | cons b rest ih =>
    rw [Memory.writeBlock, ih, Memory.read_write, if_neg]
    · exact fun e => h 0 (by simp) (by simpa using e.symm)
    · intro k hk
      have := h (k + 1) (by simpa using hk)
      rwa [Nat.add_right_comm, Nat.add_assoc]

/-- A block write of at most 4096 bytes puts each byte at its place. -/
theorem Memory.read_writeBlock_inside (m : Memory) (a k : Nat) (bytes : List Byte) (hk : k < bytes.length)
    (hlen : bytes.length ≤ 4096) : Memory.read (Memory.writeBlock m a bytes) (a + k) = bytes[k] := by
  induction bytes generalizing m a k with
  | nil => simp at hk
  | cons b rest ih =>
    simp only [List.length_cons] at hk hlen
    cases k with
    | zero =>
      rw [Memory.writeBlock, Memory.read_writeBlock_outside]
      · simp [Memory.read_write]
      · intro k hk; omega
    | succ k =>
      rw [Memory.writeBlock, show a + (k + 1) = (a + 1) + k by omega, ih _ _ _ (by omega) (by omega)]
      rfl

/-! ### The canonical form -/

theorem Memory.wfFrom_mono {lo hi : Nat} (h : lo ≤ hi) {m : Memory} (hm : Memory.wfFrom hi m = true) :
    Memory.wfFrom lo m = true := by
  cases m with
  | nil => rfl
  | cons e rest =>
    simp only [Memory.wfFrom, Bool.and_eq_true, decide_eq_true_eq] at hm ⊢
    exact ⟨⟨⟨by omega, hm.1.1.2⟩, hm.1.2⟩, hm.2⟩

theorem Memory.wfFrom_erase (m : Memory) (lo a : Nat) (hm : Memory.wfFrom lo m = true) :
    Memory.wfFrom lo (Memory.erase m a) = true := by
  induction m generalizing lo with
  | nil => rfl
  | cons e rest ih =>
    simp only [Memory.wfFrom, Bool.and_eq_true, decide_eq_true_eq] at hm
    have hrest := ih _ hm.2
    simp only [Memory.erase, List.filter_cons] at hrest ⊢
    split
    · simp only [Memory.wfFrom, Bool.and_eq_true, decide_eq_true_eq]
      exact ⟨hm.1, hrest⟩
    · exact Memory.wfFrom_mono (by omega) hrest

theorem Memory.wfFrom_insertCell (m : Memory) (lo a : Nat) (b : Byte) (hlo : lo ≤ a) (ha : a < 4096)
    (hb : b ≠ Memory.unlisted) (hm : Memory.wfFrom lo m = true) (hna : ∀ cell ∈ m, cell.1 ≠ a) :
    Memory.wfFrom lo (Memory.insertCell m a b) = true := by
  induction m generalizing lo with
  | nil => simp [Memory.insertCell, Memory.wfFrom, Memory.size, hlo, ha, hb]
  | cons e rest ih =>
    obtain ⟨k, d⟩ := e
    have hka : k ≠ a := hna (k, d) (by simp)
    simp only [Memory.wfFrom, Bool.and_eq_true, decide_eq_true_eq, Bool.not_eq_true', decide_eq_false_iff_not] at hm
    simp only [Memory.insertCell]
    split <;> simp only [Memory.wfFrom, Bool.and_eq_true, decide_eq_true_eq, Bool.not_eq_true', decide_eq_false_iff_not]
    · exact ⟨⟨⟨hlo, ha⟩, hb⟩, ⟨⟨by omega, hm.1.1.2⟩, hm.1.2⟩, hm.2⟩
    · exact ⟨hm.1, ih _ (by omega) hm.2 fun cell hc => hna cell (by simp [hc])⟩

/-- A write keeps the canonical form. -/
theorem Memory.wf_write (m : Memory) (a : Nat) (b : Byte) (hm : Memory.wf m = true) :
    Memory.wf (Memory.write m a b) = true := by
  unfold Memory.write Memory.put
  split
  · exact Memory.wfFrom_erase _ _ _ hm
  · exact Memory.wfFrom_insertCell _ _ _ _ (Nat.zero_le _) (Nat.mod_lt _ (by decide)) ‹_›
      (Memory.wfFrom_erase _ _ _ hm) fun cell hc => by simpa [Memory.erase] using (List.mem_filter.mp hc).2

/-- A block write keeps the canonical form. -/
theorem Memory.wf_writeBlock (m : Memory) (a : Nat) (bytes : List Byte) (hm : Memory.wf m = true) :
    Memory.wf (Memory.writeBlock m a bytes) = true := by
  induction bytes generalizing m a with
  | nil => exact hm
  | cons b rest ih => exact ih _ _ (Memory.wf_write m a b hm)

/-- Reset's memory has the canonical form. -/
theorem Memory.wf_reset : Memory.wf State.reset.mem = true := rfl

/-- Below the first listed address nothing is listed. -/
theorem Memory.lookup_below {m : Memory} {lo c : Nat} (hm : Memory.wfFrom lo m = true) (hc : c < lo) :
    Memory.lookup m c = Memory.unlisted := by
  induction m generalizing lo with
  | nil => rfl
  | cons e rest ih =>
    simp only [Memory.wfFrom, Bool.and_eq_true, decide_eq_true_eq] at hm
    rw [Memory.lookup, if_neg (by omega)]
    exact ih hm.2 (by omega)

/-- Memories in canonical form that agree on the 4096 addresses are equal. -/
theorem Memory.ext_of_lookup {m k : Memory} {lo : Nat} (hm : Memory.wfFrom lo m = true)
    (hk : Memory.wfFrom lo k = true) (h : ∀ c, lo ≤ c → Memory.lookup m c = Memory.lookup k c) : m = k := by
  induction m generalizing k lo with
  | nil =>
    cases k with
    | nil => rfl
    | cons e rest =>
      simp only [Memory.wfFrom, Bool.and_eq_true, decide_eq_true_eq, Bool.not_eq_true', decide_eq_false_iff_not] at hk
      have := h e.1 hk.1.1.1
      simp only [Memory.lookup, if_true] at this
      exact absurd this.symm hk.1.2
  | cons e rest ih =>
    obtain ⟨a, b⟩ := e
    cases k with
    | nil =>
      simp only [Memory.wfFrom, Bool.and_eq_true, decide_eq_true_eq, Bool.not_eq_true', decide_eq_false_iff_not] at hm
      have := h a hm.1.1.1
      simp only [Memory.lookup, if_true] at this
      exact absurd this hm.1.2
    | cons e' rest' =>
      obtain ⟨a', b'⟩ := e'
      simp only [Memory.wfFrom, Bool.and_eq_true, decide_eq_true_eq, Bool.not_eq_true', decide_eq_false_iff_not] at hm hk
      have haa : a = a' := by
        rcases Nat.lt_trichotomy a a' with hlt | heq | hgt
        · have := h a hm.1.1.1
          simp only [Memory.lookup, if_true, if_neg (show ¬ a' = a by omega)] at this
          exact absurd (this.trans (Memory.lookup_below hk.2 (by omega))) hm.1.2
        · exact heq
        · have := h a' hk.1.1.1
          simp only [Memory.lookup, if_true, if_neg (show ¬ a = a' by omega)] at this
          exact absurd (this.symm.trans (Memory.lookup_below hm.2 (by omega))) hk.1.2
      subst haa
      have hb : b = b' := by simpa [Memory.lookup] using h a hm.1.1.1
      subst hb
      rw [ih hm.2 hk.2 fun c hc => by
        simpa [Memory.lookup, show ¬ a = c by omega] using h c (by omega)]

/-- Past the last byte nothing is listed. -/
theorem Memory.lookup_past {m : Memory} {lo c : Nat} (hm : Memory.wfFrom lo m = true) (hc : 4096 ≤ c) :
    Memory.lookup m c = Memory.unlisted := by
  induction m generalizing lo with
  | nil => rfl
  | cons e rest ih =>
    obtain ⟨a, b⟩ := e
    simp only [Memory.wfFrom, Memory.size, Bool.and_eq_true, decide_eq_true_eq] at hm
    obtain ⟨⟨⟨_, ha⟩, _⟩, _⟩ := hm
    have hac : a ≠ c := by rintro rfl; exact absurd (of_decide_eq_true ha) (not_lt_of_ge hc)
    simp only [Memory.lookup, if_neg hac]
    exact ih ‹_›

/-- Memories in canonical form that read alike are equal. -/
theorem Memory.ext_of_read {m k : Memory} (hm : Memory.wf m = true) (hk : Memory.wf k = true)
    (h : ∀ a, Memory.read m a = Memory.read k a) : m = k := by
  refine Memory.ext_of_lookup (lo := 0) hm hk fun c _ => ?_
  by_cases hc : c < 4096
  · have hr := h c
    unfold Memory.read at hr
    rwa [Memory.size, Nat.mod_eq_of_lt hc] at hr
  · rw [Memory.lookup_past hm (by omega), Memory.lookup_past hk (by omega)]

end Sys2Proof.Machine
end

