-- ==== Sys2Proof/Laws/State.lean ====
section
/-! SUPPORT. What each named update of the state leaves alone: one lemma per field per update, true by rfl. -/

namespace Sys2Proof.Machine

variable (s : State)

/-! ### `setReg`: `V[x] <- b` -/

@[simp] theorem State.setReg_pc (x : Reg) (b : Byte) : (s.setReg x b).pc = s.pc := rfl
@[simp] theorem State.setReg_i (x : Reg) (b : Byte) : (s.setReg x b).i = s.i := rfl
@[simp] theorem State.setReg_stack (x : Reg) (b : Byte) : (s.setReg x b).stack = s.stack := rfl
@[simp] theorem State.setReg_dt (x : Reg) (b : Byte) : (s.setReg x b).dt = s.dt := rfl
@[simp] theorem State.setReg_st (x : Reg) (b : Byte) : (s.setReg x b).st = s.st := rfl
@[simp] theorem State.setReg_mem (x : Reg) (b : Byte) : (s.setReg x b).mem = s.mem := rfl
@[simp] theorem State.setReg_disp (x : Reg) (b : Byte) : (s.setReg x b).disp = s.disp := rfl
@[simp] theorem State.setReg_hires (x : Reg) (b : Byte) : (s.setReg x b).hires = s.hires := rfl
@[simp] theorem State.setReg_key (x : Reg) (b : Byte) : (s.setReg x b).key = s.key := rfl
@[simp] theorem State.setReg_keyPrev (x : Reg) (b : Byte) : (s.setReg x b).keyPrev = s.keyPrev := rfl
@[simp] theorem State.setReg_latch (x : Reg) (b : Byte) : (s.setReg x b).latch = s.latch := rfl
@[simp] theorem State.setReg_variant (x : Reg) (b : Byte) : (s.setReg x b).variant = s.variant := rfl
@[simp] theorem State.setReg_flags (x : Reg) (b : Byte) : (s.setReg x b).flags = s.flags := rfl
@[simp] theorem State.setReg_displayed (x : Reg) (b : Byte) : (s.setReg x b).displayed = s.displayed := rfl
@[simp] theorem State.setReg_cfg (x : Reg) (b : Byte) : (s.setReg x b).cfg = s.cfg := rfl
@[simp] theorem State.setReg_draws (x : Reg) (b : Byte) : (s.setReg x b).draws = s.draws := rfl

/-! ### `setFlag`: `VF <- b` -/

@[simp] theorem State.setFlag_pc (b : Byte) : (s.setFlag b).pc = s.pc := rfl
@[simp] theorem State.setFlag_i (b : Byte) : (s.setFlag b).i = s.i := rfl
@[simp] theorem State.setFlag_stack (b : Byte) : (s.setFlag b).stack = s.stack := rfl
@[simp] theorem State.setFlag_dt (b : Byte) : (s.setFlag b).dt = s.dt := rfl
@[simp] theorem State.setFlag_st (b : Byte) : (s.setFlag b).st = s.st := rfl
@[simp] theorem State.setFlag_mem (b : Byte) : (s.setFlag b).mem = s.mem := rfl
@[simp] theorem State.setFlag_disp (b : Byte) : (s.setFlag b).disp = s.disp := rfl
@[simp] theorem State.setFlag_hires (b : Byte) : (s.setFlag b).hires = s.hires := rfl
@[simp] theorem State.setFlag_key (b : Byte) : (s.setFlag b).key = s.key := rfl
@[simp] theorem State.setFlag_keyPrev (b : Byte) : (s.setFlag b).keyPrev = s.keyPrev := rfl
@[simp] theorem State.setFlag_latch (b : Byte) : (s.setFlag b).latch = s.latch := rfl
@[simp] theorem State.setFlag_variant (b : Byte) : (s.setFlag b).variant = s.variant := rfl
@[simp] theorem State.setFlag_flags (b : Byte) : (s.setFlag b).flags = s.flags := rfl
@[simp] theorem State.setFlag_displayed (b : Byte) : (s.setFlag b).displayed = s.displayed := rfl
@[simp] theorem State.setFlag_cfg (b : Byte) : (s.setFlag b).cfg = s.cfg := rfl
@[simp] theorem State.setFlag_draws (b : Byte) : (s.setFlag b).draws = s.draws := rfl

/-! ### `setRegThenFlag`: a result and its flag -/

@[simp] theorem State.setRegThenFlag_pc (x : Reg) (r f : Byte) : (s.setRegThenFlag x r f).pc = s.pc := rfl
@[simp] theorem State.setRegThenFlag_i (x : Reg) (r f : Byte) : (s.setRegThenFlag x r f).i = s.i := rfl
@[simp] theorem State.setRegThenFlag_stack (x : Reg) (r f : Byte) : (s.setRegThenFlag x r f).stack = s.stack := rfl
@[simp] theorem State.setRegThenFlag_dt (x : Reg) (r f : Byte) : (s.setRegThenFlag x r f).dt = s.dt := rfl
@[simp] theorem State.setRegThenFlag_st (x : Reg) (r f : Byte) : (s.setRegThenFlag x r f).st = s.st := rfl
@[simp] theorem State.setRegThenFlag_mem (x : Reg) (r f : Byte) : (s.setRegThenFlag x r f).mem = s.mem := rfl
@[simp] theorem State.setRegThenFlag_disp (x : Reg) (r f : Byte) : (s.setRegThenFlag x r f).disp = s.disp := rfl
@[simp] theorem State.setRegThenFlag_hires (x : Reg) (r f : Byte) : (s.setRegThenFlag x r f).hires = s.hires := rfl
@[simp] theorem State.setRegThenFlag_key (x : Reg) (r f : Byte) : (s.setRegThenFlag x r f).key = s.key := rfl
@[simp] theorem State.setRegThenFlag_keyPrev (x : Reg) (r f : Byte) : (s.setRegThenFlag x r f).keyPrev = s.keyPrev := rfl
@[simp] theorem State.setRegThenFlag_latch (x : Reg) (r f : Byte) : (s.setRegThenFlag x r f).latch = s.latch := rfl
@[simp] theorem State.setRegThenFlag_variant (x : Reg) (r f : Byte) : (s.setRegThenFlag x r f).variant = s.variant := rfl
@[simp] theorem State.setRegThenFlag_flags (x : Reg) (r f : Byte) : (s.setRegThenFlag x r f).flags = s.flags := rfl
@[simp] theorem State.setRegThenFlag_displayed (x : Reg) (r f : Byte) : (s.setRegThenFlag x r f).displayed = s.displayed := rfl
@[simp] theorem State.setRegThenFlag_cfg (x : Reg) (r f : Byte) : (s.setRegThenFlag x r f).cfg = s.cfg := rfl
@[simp] theorem State.setRegThenFlag_draws (x : Reg) (r f : Byte) : (s.setRegThenFlag x r f).draws = s.draws := rfl

/-! ### `setRegsUpTo`: a block of registers -/

@[simp] theorem State.setRegsUpTo_pc (x : Nat) (g : Nat → Byte) : (s.setRegsUpTo x g).pc = s.pc := rfl
@[simp] theorem State.setRegsUpTo_i (x : Nat) (g : Nat → Byte) : (s.setRegsUpTo x g).i = s.i := rfl
@[simp] theorem State.setRegsUpTo_stack (x : Nat) (g : Nat → Byte) : (s.setRegsUpTo x g).stack = s.stack := rfl
@[simp] theorem State.setRegsUpTo_dt (x : Nat) (g : Nat → Byte) : (s.setRegsUpTo x g).dt = s.dt := rfl
@[simp] theorem State.setRegsUpTo_st (x : Nat) (g : Nat → Byte) : (s.setRegsUpTo x g).st = s.st := rfl
@[simp] theorem State.setRegsUpTo_mem (x : Nat) (g : Nat → Byte) : (s.setRegsUpTo x g).mem = s.mem := rfl
@[simp] theorem State.setRegsUpTo_disp (x : Nat) (g : Nat → Byte) : (s.setRegsUpTo x g).disp = s.disp := rfl
@[simp] theorem State.setRegsUpTo_hires (x : Nat) (g : Nat → Byte) : (s.setRegsUpTo x g).hires = s.hires := rfl
@[simp] theorem State.setRegsUpTo_key (x : Nat) (g : Nat → Byte) : (s.setRegsUpTo x g).key = s.key := rfl
@[simp] theorem State.setRegsUpTo_keyPrev (x : Nat) (g : Nat → Byte) : (s.setRegsUpTo x g).keyPrev = s.keyPrev := rfl
@[simp] theorem State.setRegsUpTo_latch (x : Nat) (g : Nat → Byte) : (s.setRegsUpTo x g).latch = s.latch := rfl
@[simp] theorem State.setRegsUpTo_variant (x : Nat) (g : Nat → Byte) : (s.setRegsUpTo x g).variant = s.variant := rfl
@[simp] theorem State.setRegsUpTo_flags (x : Nat) (g : Nat → Byte) : (s.setRegsUpTo x g).flags = s.flags := rfl
@[simp] theorem State.setRegsUpTo_displayed (x : Nat) (g : Nat → Byte) : (s.setRegsUpTo x g).displayed = s.displayed := rfl
@[simp] theorem State.setRegsUpTo_cfg (x : Nat) (g : Nat → Byte) : (s.setRegsUpTo x g).cfg = s.cfg := rfl
@[simp] theorem State.setRegsUpTo_draws (x : Nat) (g : Nat → Byte) : (s.setRegsUpTo x g).draws = s.draws := rfl

/-! ### `randomInto`: a masked random byte -/

@[simp] theorem State.randomInto_pc (x : Reg) (nn b : Byte) : (s.randomInto x nn b).pc = s.pc := rfl
@[simp] theorem State.randomInto_i (x : Reg) (nn b : Byte) : (s.randomInto x nn b).i = s.i := rfl
@[simp] theorem State.randomInto_stack (x : Reg) (nn b : Byte) : (s.randomInto x nn b).stack = s.stack := rfl
@[simp] theorem State.randomInto_dt (x : Reg) (nn b : Byte) : (s.randomInto x nn b).dt = s.dt := rfl
@[simp] theorem State.randomInto_st (x : Reg) (nn b : Byte) : (s.randomInto x nn b).st = s.st := rfl
@[simp] theorem State.randomInto_mem (x : Reg) (nn b : Byte) : (s.randomInto x nn b).mem = s.mem := rfl
@[simp] theorem State.randomInto_disp (x : Reg) (nn b : Byte) : (s.randomInto x nn b).disp = s.disp := rfl
@[simp] theorem State.randomInto_hires (x : Reg) (nn b : Byte) : (s.randomInto x nn b).hires = s.hires := rfl
@[simp] theorem State.randomInto_key (x : Reg) (nn b : Byte) : (s.randomInto x nn b).key = s.key := rfl
@[simp] theorem State.randomInto_keyPrev (x : Reg) (nn b : Byte) : (s.randomInto x nn b).keyPrev = s.keyPrev := rfl
@[simp] theorem State.randomInto_latch (x : Reg) (nn b : Byte) : (s.randomInto x nn b).latch = s.latch := rfl
@[simp] theorem State.randomInto_variant (x : Reg) (nn b : Byte) : (s.randomInto x nn b).variant = s.variant := rfl
@[simp] theorem State.randomInto_flags (x : Reg) (nn b : Byte) : (s.randomInto x nn b).flags = s.flags := rfl
@[simp] theorem State.randomInto_displayed (x : Reg) (nn b : Byte) : (s.randomInto x nn b).displayed = s.displayed := rfl
@[simp] theorem State.randomInto_cfg (x : Reg) (nn b : Byte) : (s.randomInto x nn b).cfg = s.cfg := rfl
@[simp] theorem State.randomInto_draws (x : Reg) (nn b : Byte) : (s.randomInto x nn b).draws = s.draws := rfl

/-! ### `skipIf`: a skip -/

@[simp] theorem State.skipIf_v (c : Bool) : (s.skipIf c).v = s.v := rfl
@[simp] theorem State.skipIf_i (c : Bool) : (s.skipIf c).i = s.i := rfl
@[simp] theorem State.skipIf_stack (c : Bool) : (s.skipIf c).stack = s.stack := rfl
@[simp] theorem State.skipIf_dt (c : Bool) : (s.skipIf c).dt = s.dt := rfl
@[simp] theorem State.skipIf_st (c : Bool) : (s.skipIf c).st = s.st := rfl
@[simp] theorem State.skipIf_mem (c : Bool) : (s.skipIf c).mem = s.mem := rfl
@[simp] theorem State.skipIf_disp (c : Bool) : (s.skipIf c).disp = s.disp := rfl
@[simp] theorem State.skipIf_hires (c : Bool) : (s.skipIf c).hires = s.hires := rfl
@[simp] theorem State.skipIf_key (c : Bool) : (s.skipIf c).key = s.key := rfl
@[simp] theorem State.skipIf_keyPrev (c : Bool) : (s.skipIf c).keyPrev = s.keyPrev := rfl
@[simp] theorem State.skipIf_latch (c : Bool) : (s.skipIf c).latch = s.latch := rfl
@[simp] theorem State.skipIf_variant (c : Bool) : (s.skipIf c).variant = s.variant := rfl
@[simp] theorem State.skipIf_flags (c : Bool) : (s.skipIf c).flags = s.flags := rfl
@[simp] theorem State.skipIf_displayed (c : Bool) : (s.skipIf c).displayed = s.displayed := rfl
@[simp] theorem State.skipIf_cfg (c : Bool) : (s.skipIf c).cfg = s.cfg := rfl
@[simp] theorem State.skipIf_draws (c : Bool) : (s.skipIf c).draws = s.draws := rfl

/-! ### `repeatInstr`: repeating an instruction -/

@[simp] theorem State.repeatInstr_v : (s.repeatInstr).v = s.v := rfl
@[simp] theorem State.repeatInstr_i : (s.repeatInstr).i = s.i := rfl
@[simp] theorem State.repeatInstr_stack : (s.repeatInstr).stack = s.stack := rfl
@[simp] theorem State.repeatInstr_dt : (s.repeatInstr).dt = s.dt := rfl
@[simp] theorem State.repeatInstr_st : (s.repeatInstr).st = s.st := rfl
@[simp] theorem State.repeatInstr_mem : (s.repeatInstr).mem = s.mem := rfl
@[simp] theorem State.repeatInstr_disp : (s.repeatInstr).disp = s.disp := rfl
@[simp] theorem State.repeatInstr_hires : (s.repeatInstr).hires = s.hires := rfl
@[simp] theorem State.repeatInstr_key : (s.repeatInstr).key = s.key := rfl
@[simp] theorem State.repeatInstr_keyPrev : (s.repeatInstr).keyPrev = s.keyPrev := rfl
@[simp] theorem State.repeatInstr_latch : (s.repeatInstr).latch = s.latch := rfl
@[simp] theorem State.repeatInstr_variant : (s.repeatInstr).variant = s.variant := rfl
@[simp] theorem State.repeatInstr_flags : (s.repeatInstr).flags = s.flags := rfl
@[simp] theorem State.repeatInstr_displayed : (s.repeatInstr).displayed = s.displayed := rfl
@[simp] theorem State.repeatInstr_cfg : (s.repeatInstr).cfg = s.cfg := rfl
@[simp] theorem State.repeatInstr_draws : (s.repeatInstr).draws = s.draws := rfl

/-! ### `scroll`: a scroll -/

@[simp] theorem State.scroll_v (f : Nat → Nat → Bool) : (s.scroll f).v = s.v := by simp only [State.scroll]
@[simp] theorem State.scroll_pc (f : Nat → Nat → Bool) : (s.scroll f).pc = s.pc := by simp only [State.scroll]
@[simp] theorem State.scroll_i (f : Nat → Nat → Bool) : (s.scroll f).i = s.i := by simp only [State.scroll]
@[simp] theorem State.scroll_stack (f : Nat → Nat → Bool) : (s.scroll f).stack = s.stack := by simp only [State.scroll]
@[simp] theorem State.scroll_dt (f : Nat → Nat → Bool) : (s.scroll f).dt = s.dt := by simp only [State.scroll]
@[simp] theorem State.scroll_st (f : Nat → Nat → Bool) : (s.scroll f).st = s.st := by simp only [State.scroll]
@[simp] theorem State.scroll_mem (f : Nat → Nat → Bool) : (s.scroll f).mem = s.mem := by simp only [State.scroll]
@[simp] theorem State.scroll_hires (f : Nat → Nat → Bool) : (s.scroll f).hires = s.hires := by simp only [State.scroll]
@[simp] theorem State.scroll_key (f : Nat → Nat → Bool) : (s.scroll f).key = s.key := by simp only [State.scroll]
@[simp] theorem State.scroll_keyPrev (f : Nat → Nat → Bool) : (s.scroll f).keyPrev = s.keyPrev := by simp only [State.scroll]
@[simp] theorem State.scroll_latch (f : Nat → Nat → Bool) : (s.scroll f).latch = s.latch := by simp only [State.scroll]
@[simp] theorem State.scroll_variant (f : Nat → Nat → Bool) : (s.scroll f).variant = s.variant := by simp only [State.scroll]
@[simp] theorem State.scroll_flags (f : Nat → Nat → Bool) : (s.scroll f).flags = s.flags := by simp only [State.scroll]
@[simp] theorem State.scroll_displayed (f : Nat → Nat → Bool) : (s.scroll f).displayed = s.displayed := by simp only [State.scroll]
@[simp] theorem State.scroll_cfg (f : Nat → Nat → Bool) : (s.scroll f).cfg = s.cfg := by simp only [State.scroll]
@[simp] theorem State.scroll_draws (f : Nat → Nat → Bool) : (s.scroll f).draws = s.draws := by simp only [State.scroll]

/-! ### `beginStep`: phases 1, 2 and 4 of STEP -/

@[simp] theorem State.beginStep_v : (s.beginStep).v = s.v := rfl
@[simp] theorem State.beginStep_i : (s.beginStep).i = s.i := rfl
@[simp] theorem State.beginStep_stack : (s.beginStep).stack = s.stack := rfl
@[simp] theorem State.beginStep_dt : (s.beginStep).dt = s.dt := rfl
@[simp] theorem State.beginStep_st : (s.beginStep).st = s.st := rfl
@[simp] theorem State.beginStep_mem : (s.beginStep).mem = s.mem := rfl
@[simp] theorem State.beginStep_disp : (s.beginStep).disp = s.disp := rfl
@[simp] theorem State.beginStep_hires : (s.beginStep).hires = s.hires := rfl
@[simp] theorem State.beginStep_key : (s.beginStep).key = s.key := rfl
@[simp] theorem State.beginStep_keyPrev : (s.beginStep).keyPrev = s.keyPrev := rfl
@[simp] theorem State.beginStep_latch : (s.beginStep).latch = s.latch := rfl
@[simp] theorem State.beginStep_variant : (s.beginStep).variant = s.variant := rfl
@[simp] theorem State.beginStep_flags : (s.beginStep).flags = s.flags := rfl
@[simp] theorem State.beginStep_cfg : (s.beginStep).cfg = s.cfg := rfl
@[simp] theorem State.beginStep_draws : (s.beginStep).draws = s.draws := rfl

/-! ### `endStep`: the snapshot -/

@[simp] theorem State.endStep_v : (s.endStep).v = s.v := rfl
@[simp] theorem State.endStep_pc : (s.endStep).pc = s.pc := rfl
@[simp] theorem State.endStep_i : (s.endStep).i = s.i := rfl
@[simp] theorem State.endStep_stack : (s.endStep).stack = s.stack := rfl
@[simp] theorem State.endStep_dt : (s.endStep).dt = s.dt := rfl
@[simp] theorem State.endStep_st : (s.endStep).st = s.st := rfl
@[simp] theorem State.endStep_mem : (s.endStep).mem = s.mem := rfl
@[simp] theorem State.endStep_disp : (s.endStep).disp = s.disp := rfl
@[simp] theorem State.endStep_hires : (s.endStep).hires = s.hires := rfl
@[simp] theorem State.endStep_key : (s.endStep).key = s.key := rfl
@[simp] theorem State.endStep_latch : (s.endStep).latch = s.latch := rfl
@[simp] theorem State.endStep_variant : (s.endStep).variant = s.variant := rfl
@[simp] theorem State.endStep_flags : (s.endStep).flags = s.flags := rfl
@[simp] theorem State.endStep_displayed : (s.endStep).displayed = s.displayed := rfl
@[simp] theorem State.endStep_cfg : (s.endStep).cfg = s.cfg := rfl
@[simp] theorem State.endStep_draws : (s.endStep).draws = s.draws := rfl

/-! ### `placeWord`: placing a word -/

@[simp] theorem State.placeWord_v (w : Word) : (s.placeWord w).v = s.v := rfl
@[simp] theorem State.placeWord_pc (w : Word) : (s.placeWord w).pc = s.pc := rfl
@[simp] theorem State.placeWord_i (w : Word) : (s.placeWord w).i = s.i := rfl
@[simp] theorem State.placeWord_stack (w : Word) : (s.placeWord w).stack = s.stack := rfl
@[simp] theorem State.placeWord_dt (w : Word) : (s.placeWord w).dt = s.dt := rfl
@[simp] theorem State.placeWord_st (w : Word) : (s.placeWord w).st = s.st := rfl
@[simp] theorem State.placeWord_disp (w : Word) : (s.placeWord w).disp = s.disp := rfl
@[simp] theorem State.placeWord_hires (w : Word) : (s.placeWord w).hires = s.hires := rfl
@[simp] theorem State.placeWord_key (w : Word) : (s.placeWord w).key = s.key := rfl
@[simp] theorem State.placeWord_keyPrev (w : Word) : (s.placeWord w).keyPrev = s.keyPrev := rfl
@[simp] theorem State.placeWord_latch (w : Word) : (s.placeWord w).latch = s.latch := rfl
@[simp] theorem State.placeWord_variant (w : Word) : (s.placeWord w).variant = s.variant := rfl
@[simp] theorem State.placeWord_flags (w : Word) : (s.placeWord w).flags = s.flags := rfl
@[simp] theorem State.placeWord_displayed (w : Word) : (s.placeWord w).displayed = s.displayed := rfl
@[simp] theorem State.placeWord_cfg (w : Word) : (s.placeWord w).cfg = s.cfg := rfl
@[simp] theorem State.placeWord_draws (w : Word) : (s.placeWord w).draws = s.draws := rfl

/-! ### `placeRom`: placing a program -/

@[simp] theorem State.placeRom_v (bytes : List Byte) : (s.placeRom bytes).v = s.v := rfl
@[simp] theorem State.placeRom_pc (bytes : List Byte) : (s.placeRom bytes).pc = s.pc := rfl
@[simp] theorem State.placeRom_i (bytes : List Byte) : (s.placeRom bytes).i = s.i := rfl
@[simp] theorem State.placeRom_stack (bytes : List Byte) : (s.placeRom bytes).stack = s.stack := rfl
@[simp] theorem State.placeRom_dt (bytes : List Byte) : (s.placeRom bytes).dt = s.dt := rfl
@[simp] theorem State.placeRom_st (bytes : List Byte) : (s.placeRom bytes).st = s.st := rfl
@[simp] theorem State.placeRom_disp (bytes : List Byte) : (s.placeRom bytes).disp = s.disp := rfl
@[simp] theorem State.placeRom_hires (bytes : List Byte) : (s.placeRom bytes).hires = s.hires := rfl
@[simp] theorem State.placeRom_key (bytes : List Byte) : (s.placeRom bytes).key = s.key := rfl
@[simp] theorem State.placeRom_keyPrev (bytes : List Byte) : (s.placeRom bytes).keyPrev = s.keyPrev := rfl
@[simp] theorem State.placeRom_latch (bytes : List Byte) : (s.placeRom bytes).latch = s.latch := rfl
@[simp] theorem State.placeRom_variant (bytes : List Byte) : (s.placeRom bytes).variant = s.variant := rfl
@[simp] theorem State.placeRom_flags (bytes : List Byte) : (s.placeRom bytes).flags = s.flags := rfl
@[simp] theorem State.placeRom_displayed (bytes : List Byte) : (s.placeRom bytes).displayed = s.displayed := rfl
@[simp] theorem State.placeRom_cfg (bytes : List Byte) : (s.placeRom bytes).cfg = s.cfg := rfl
@[simp] theorem State.placeRom_draws (bytes : List Byte) : (s.placeRom bytes).draws = s.draws := rfl

/-! ### `tick`: TICK -/

@[simp] theorem State.tick_v : (s.tick).v = s.v := rfl
@[simp] theorem State.tick_pc : (s.tick).pc = s.pc := rfl
@[simp] theorem State.tick_i : (s.tick).i = s.i := rfl
@[simp] theorem State.tick_stack : (s.tick).stack = s.stack := rfl
@[simp] theorem State.tick_mem : (s.tick).mem = s.mem := rfl
@[simp] theorem State.tick_disp : (s.tick).disp = s.disp := rfl
@[simp] theorem State.tick_hires : (s.tick).hires = s.hires := rfl
@[simp] theorem State.tick_key : (s.tick).key = s.key := rfl
@[simp] theorem State.tick_keyPrev : (s.tick).keyPrev = s.keyPrev := rfl
@[simp] theorem State.tick_latch : (s.tick).latch = s.latch := rfl
@[simp] theorem State.tick_variant : (s.tick).variant = s.variant := rfl
@[simp] theorem State.tick_flags : (s.tick).flags = s.flags := rfl
@[simp] theorem State.tick_displayed : (s.tick).displayed = s.displayed := rfl
@[simp] theorem State.tick_cfg : (s.tick).cfg = s.cfg := rfl
@[simp] theorem State.tick_draws : (s.tick).draws = s.draws := rfl

/-! ### The fields that the updates do change -/

@[simp] theorem State.skipIf_pc (c : Bool) : (s.skipIf c).pc = if c then s.pc + 2 else s.pc := rfl
@[simp] theorem State.repeatInstr_pc : s.repeatInstr.pc = s.pc - 2 := rfl
@[simp] theorem State.beginStep_pc : s.beginStep.pc = boundPc s.pc + 2 := rfl
@[simp] theorem State.beginStep_displayed : s.beginStep.displayed = false := rfl
@[simp] theorem State.endStep_keyPrev : s.endStep.keyPrev = s.key := rfl
@[simp] theorem State.scroll_disp (f : Nat → Nat → Bool) :
    (s.scroll f).disp = Display.mapWindow s.disp s.width s.height f := by simp only [State.scroll]

/-! ### The register file: one home, read after write -/

theorem State.reg_setReg (x r : Reg) (b : Byte) : (s.setReg x b).reg r = if r = x then b else s.reg r := by
  simp only [State.reg, State.setReg, Vector.getElem_set, Fin.ext_iff, eq_comm]

@[simp] theorem State.reg_setReg_same (x : Reg) (b : Byte) : (s.setReg x b).reg x = b := by
  simp [State.reg_setReg]

theorem State.reg_setReg_other {x r : Reg} (h : r ≠ x) (b : Byte) : (s.setReg x b).reg r = s.reg r := by
  simp [State.reg_setReg, h]

theorem State.reg_setFlag (r : Reg) (b : Byte) : (s.setFlag b).reg r = if r = 15 then b else s.reg r :=
  State.reg_setReg s vf r b

/-- A result, then its flag: the flag wins in `VF`. -/
theorem State.reg_setRegThenFlag (x r : Reg) (b f : Byte) :
    (s.setRegThenFlag x b f).reg r = if r = 15 then f else if r = x then b else s.reg r := by
  simp only [State.setRegThenFlag, State.reg_setFlag, State.reg_setReg]

theorem State.reg_setRegsUpTo (x : Nat) (g : Nat → Byte) (r : Reg) :
    (s.setRegsUpTo x g).reg r = if r.val ≤ x then g r.val else s.reg r := by
  simp [State.reg, State.setRegsUpTo]

/-- Registers are read from `v` alone. -/
theorem State.reg_congr {s t : State} (h : t.v = s.v) (r : Reg) : t.reg r = s.reg r := by
  simp [State.reg, h]

/-! ### An outcome that was changed afterwards -/

@[simp] theorem Outcome.andThen_next (t : State) (f : State → State) :
    Outcome.andThen (.next t) f = .next (f t) := rfl
@[simp] theorem Outcome.andThen_refused (r : Refusal) (f : State → State) :
    Outcome.andThen (.refused r) f = .refused r := rfl

theorem Outcome.andThen_eq_next {o : Outcome} {f : State → State} {u : State} :
    Outcome.andThen o f = .next u ↔ ∃ t, o = .next t ∧ u = f t := by
  cases o <;> simp [Outcome.andThen, eq_comm]

theorem Outcome.andThen_eq_refused {o : Outcome} {f : State → State} {r : Refusal} :
    Outcome.andThen o f = .refused r ↔ o = .refused r := by
  cases o <;> simp [Outcome.andThen]

end Sys2Proof.Machine
end

