-- ==== Sys2Proof/Laws/Operands.lean ====
section
/-! SUPPORT. What each operand form and each small operation answers, said once. -/

namespace Sys2Proof.Machine

/-! ### Variants (R12) -/

theorem isSuper_iff {v : Variant} : v.isSuper = true ↔ v ≠ .chip8 := by cases v <;> simp [Variant.isSuper]

theorem isSuper_chip8 : Variant.chip8.isSuper = false := rfl

theorem isChip8_iff {v : Variant} : v.isChip8 = true ↔ v = .chip8 := by cases v <;> simp [Variant.isChip8]

theorem isXo_iff {v : Variant} : v.isXo = true ↔ v = .xochip := by cases v <;> simp [Variant.isXo]

theorem isXo_false_iff {v : Variant} : v.isXo = false ↔ v ≠ .xochip := by cases v <;> simp [Variant.isXo]

/-! ### Numbers and addresses -/

theorem boundPc_eq (pc : Word) : boundPc pc = if 0x1000 ≤ pc.toNat then 0x0200 else pc := by
  simp [boundPc, BitVec.le_def]

/-- The address a step fetches from lies in memory. -/
theorem boundPc_lt (pc : Word) : (boundPc pc).toNat < 0x1000 := by
  rw [boundPc_eq]
  split
  · decide
  · omega

theorem lowNibble_toNat (b : Byte) : (lowNibble b).toNat = b.toNat % 16 := by
  simp only [lowNibble, BitVec.extractLsb'_toNat, Nat.shiftRight_eq_div_pow, Nat.pow_zero, Nat.div_one, Nat.reducePow]

theorem jumpReg_eq (nnn : Addr) : jumpReg nnn = Fin.ofNat 16 (nnn.toNat / 256) := by
  apply Fin.ext
  simp only [jumpReg, regOf, BitVec.val_toFin, BitVec.extractLsb'_toNat, Nat.shiftRight_eq_div_pow, Fin.ofNat]

/-- A glyph's address is not reduced: it stays below 2^16. -/
theorem glyphAddr_toNat (base : Addr) (rows : Nat) (d : Nibble) (h : rows ≤ 10) :
    (glyphAddr base rows d).toNat = base.toNat + rows * d.toNat := by
  have hb := base.isLt
  have hd := d.isLt
  have hm : rows * d.toNat ≤ 10 * 15 := Nat.mul_le_mul h (by omega)
  simp only [glyphAddr, BitVec.toNat_ofNat]
  omega

theorem indexAfterBlock_toNat (s : State) (x : Reg) :
    (s.indexAfterBlock x).toNat =
      if s.variant = .chip8 then (s.i.toNat + x.val + 1) % 65536 else s.i.toNat := by
  unfold State.indexAfterBlock
  by_cases h : s.variant = .chip8
  · rw [if_pos (isChip8_iff.mpr h), if_pos h]
    simp only [BitVec.toNat_add, BitVec.toNat_ofNat]
    omega
  · rw [if_neg (by rwa [isChip8_iff]), if_neg h]

theorem shiftSource_eq (s : State) (x y : Reg) :
    s.shiftSource x y = if s.variant = .chip8 then s.reg y else s.reg x := by
  unfold State.shiftSource
  cases s.variant <;> simp [Variant.isChip8]

theorem shiftedOutRight_toNat : ∀ b : Byte, (shiftedOutRight b).toNat = b.toNat % 2 := by decide

theorem shiftedOutLeft_toNat : ∀ b : Byte, (shiftedOutLeft b).toNat = b.toNat / 128 := by decide

theorem flagByte_eq_one {b : Bool} : flagByte b = 1 ↔ b = true := by cases b <;> simp [flagByte]

theorem flagByte_zero_or_one (b : Bool) : flagByte b = 0 ∨ flagByte b = 1 := by cases b <;> simp [flagByte]

@[simp] theorem regsUpTo_length (s : State) (x : Reg) : (s.regsUpTo x).length = x.val + 1 := by
  have := x.isLt
  simp only [State.regsUpTo, List.length_take, Vector.length_toList]
  omega

theorem regsUpTo_getElem (s : State) (x r : Reg) (h : r.val < (s.regsUpTo x).length) :
    (s.regsUpTo x)[r.val] = s.reg r := by
  simp [State.regsUpTo, State.reg]

@[simp] theorem bcdDigits_length (b : Byte) : (bcdDigits b).length = 3 := rfl

/-! ### Keys (R252, R254, R258) -/

/-- With a legal key table the search finds the one key of a hex value. -/
theorem keyIndexOf_eq {p : Params} (hp : KeymapIsPermutation p) (j : KeyIndex) :
    keyIndexOf p.keymap p.keymap[j.val] = j := by
  unfold keyIndexOf
  cases hf : (List.finRange 16).find? fun k => p.keymap[k.val] == p.keymap[j.val] with
  | none => exact absurd (List.find?_eq_none.mp hf j (List.mem_finRange j)) (by simp)
  | some k => exact hp k j (by simpa using List.find?_some hf)

/-- The key that the low nibble of `V[X]` names, by its hex value. -/
theorem namedKey_eq {s : State} (hp : KeymapIsPermutation s.cfg) {x : Reg} {j : KeyIndex}
    (h : (s.cfg.keymap[j.val]).toNat = (s.reg x).toNat % 16) : s.namedKey x = j := by
  have hn : lowNibble (s.reg x) = s.cfg.keymap[j.val] := by
    apply BitVec.eq_of_toNat_eq
    rw [lowNibble_toNat, h]
  rw [State.namedKey, hn, keyIndexOf_eq hp]

theorem leastKeyDown_none {keys : Vector Bool 16} :
    leastKeyDown keys = none ↔ ∀ j : KeyIndex, keys[j.val] = false := by
  simp only [leastKeyDown, List.find?_eq_none, List.mem_finRange, forall_true_left, Bool.not_eq_true]

theorem leastKeyDown_some {keys : Vector Bool 16} {j : KeyIndex} :
    leastKeyDown keys = some j ↔ keys[j.val] = true ∧ ∀ k : KeyIndex, k < j → keys[k.val] = false := by
  have least : ∀ k : KeyIndex, leastKeyDown keys = some k →
      keys[k.val] = true ∧ ∀ q : KeyIndex, q < k → keys[q.val] = false := by
    intro k hk
    refine ⟨List.find?_some (p := fun j : KeyIndex => keys[j.val]) hk, fun q hq => ?_⟩
    obtain ⟨_, pre, post, hl, hpre⟩ := List.find?_eq_some_iff_append.mp hk
    have hsorted : (pre ++ k :: post).Pairwise (· < ·) := hl ▸ List.pairwise_lt_finRange 16
    have hmem : q ∈ pre ++ k :: post := hl ▸ List.mem_finRange q
    rcases List.mem_append.mp hmem with h | h
    · simpa using hpre q h
    · rcases List.mem_cons.mp h with rfl | h
      · exact absurd hq (lt_irrefl _)
      · have := (List.pairwise_cons.mp (List.pairwise_append.mp hsorted).2.1).1 q h
        exact absurd hq (not_lt_of_gt this)
  refine ⟨least j, fun ⟨hj, hlt⟩ => ?_⟩
  cases h : leastKeyDown keys with
  | none => exact absurd (leastKeyDown_none.mp h j) (by simp [hj])
  | some k =>
    obtain ⟨hk, hkl⟩ := least k h
    rcases lt_trichotomy k j with hkj | rfl | hjk
    · exact absurd (hlt k hkj) (by simp [hk])
    · rfl
    · exact absurd (hkl j hjk) (by simp [hj])

/-! ### Sprites (R230 to R240) -/

/-- The cells of a draw depend on the sprite's memory, the coordinates, the mode, the variant and the parameters. -/
theorem drawCells_congr {s u : State} {x y : Reg} (n : Nibble) (hh : u.hires = s.hires) (hv : u.variant = s.variant)
    (hc : u.cfg = s.cfg) (hm : u.mem = s.mem) (hi : u.i = s.i) (hx : u.reg x = s.reg x) (hy : u.reg y = s.reg y) :
    u.drawCells x y n = s.drawCells x y n := by
  have hbig : u.bigSprite n = s.bigSprite n := by simp only [State.bigSprite, hv]
  have hcols : u.spriteCols n = s.spriteCols n := by unfold State.spriteCols; rw [hbig]
  have hrows : u.spriteRows n = s.spriteRows n := by unfold State.spriteRows; rw [hbig]
  have hbit : ∀ r c, u.spriteBit n r c = s.spriteBit n r c := fun r c => by
    unfold State.spriteBit; rw [hbig, hm]; simp only [State.indexAddr, hi]
  have hsy : ∀ r, u.spriteY y r = s.spriteY y r := fun r => by
    unfold State.spriteY State.height; rw [hc, hv, hh, hy]
  have hsx : ∀ c, u.spriteX x c = s.spriteX x c := fun c => by
    unfold State.spriteX State.width; rw [hc, hv, hh, hx]
  simp only [State.drawCells, State.rowCells, hcols, hrows, hbit, hsy, hsx]

/-- Every cell of a draw exists. -/
theorem drawCells_inside {s : State} {x y : Reg} {n : Nibble} :
    ∀ c ∈ s.drawCells x y n, c.1 < 64 ∧ c.2 < 128 := by
  intro c hc
  have := State.drawCells_window (cy := c.1) (cx := c.2) hc
  have h1 := s.height_le
  have h2 := s.width_le
  omega

/-! ### Scrolls (R142, R145, R147) -/

/-- A scroll gives every cell of the window its new value and leaves every other cell. -/
theorem get_scroll (s : State) (f : Nat → Nat → Bool) (y x : Nat) :
    Display.get (s.scroll f).disp y x = if y < s.height ∧ x < s.width then f y x else Display.get s.disp y x :=
  Display.get_mapWindow _ _ _ _ _ _ s.width_le s.height_le

/-! ### The frames of the named updates -/

theorem onlyRegsChange_setReg (s : State) (x : Reg) (b : Byte) : OnlyRegsChange [x] s (s.setReg x b) :=
  ⟨fun _ hr => State.reg_setReg_other _ (by simpa using hr) _, fun _ => rfl, rfl⟩

theorem onlyRegsChange_setRegThenFlag (s : State) (x : Reg) (b f : Byte) :
    OnlyRegsChange [x, 15] s (s.setRegThenFlag x b f) := by
  refine ⟨fun r hr => ?_, fun _ => rfl, rfl⟩
  simp only [List.mem_cons, List.not_mem_nil, or_false, not_or] at hr
  rw [State.reg_setRegThenFlag, if_neg hr.2, if_neg hr.1]

theorem onlyPcChanges_skipIf (s : State) (c : Bool) : OnlyPcChanges s (s.skipIf c) :=
  ⟨fun _ _ => rfl, fun _ => rfl, rfl⟩

theorem onlyDisplayChanges_scroll (s : State) (f : Nat → Nat → Bool) : OnlyDisplayChanges s (s.scroll f) :=
  ⟨fun r _ => State.reg_congr (State.scroll_v s f) r, fun a => by rw [State.scroll_mem], by simp only [State.scroll]⟩

end Sys2Proof.Machine
end

