-- ==== Sys2Proof/Laws/Exec.lean ====
section
/-! SUPPORT. Everything one instruction can do to each field, said once: if `exec` answers a next state, then … . Later
proofs cite these and take no meaning apart. -/

namespace Sys2Proof.Machine

variable {i : Instr} {s t : State}

/-- The next state of an instruction that is not refused, by the meaning's own words. -/
theorem execCall_cases {nnn : Addr} (h : execCall nnn s = .next t) :
    s.stackHasRoom = true ∧ t = { s with pc := nnn.setWidth 16, stack := s.pc :: s.stack } := by
  unfold execCall at h
  split at h
  · exact ⟨‹_›, by simpa [eq_comm] using h⟩
  · cases h

theorem execRet_cases (h : execRet s = .next t) :
    (s.stack = [] ∧ t = { s with pc := 0x0200 }) ∨
    ∃ a rest, s.stack = a :: rest ∧ t = { s with pc := a, stack := rest } := by
  unfold execRet at h
  split at h
  · exact .inl ⟨‹_›, by simpa [eq_comm] using h⟩
  · exact .inr ⟨_, _, ‹_›, by simpa [eq_comm] using h⟩

theorem execScd_cases {n : Nibble} (h : execScd n s = .next t) :
    t = s ∨ ∃ f, t = s.scroll f := by
  unfold execScd at h
  split at h
  · exact .inr ⟨_, by simpa [eq_comm] using h⟩
  · exact .inl (by simpa [eq_comm] using h)

theorem execLdHf_cases {x : Reg} (h : execLdHf x s = .next t) :
    t = s ∨ t = { s with i := glyphAddr s.cfg.hifontBase 10 (lowNibble (s.reg x)) } := by
  unfold execLdHf at h
  split at h
  · exact .inr (by simpa [eq_comm] using h)
  · exact .inl (by simpa [eq_comm] using h)

theorem execStoreFlags_cases {x : Reg} (h : execStoreFlags x s = .next t) :
    t = s ∨ (s.variant = .xochip ∧ ∃ f, t = { s with flags := f }) := by
  unfold execStoreFlags at h
  split at h
  · split at h
    · cases h
    · exact .inr ⟨isXo_iff.mp ‹_›, _, by simpa only [Host.Outcome.next.injEq, eq_comm] using h⟩
  · exact .inl (by simpa [eq_comm] using h)

theorem execLoadFlags_cases {x : Reg} (h : execLoadFlags x s = .next t) :
    t = s ∨ ∃ k g, t = s.setRegsUpTo k g := by
  unfold execLoadFlags at h
  split at h
  · split at h
    · cases h
    · exact .inr ⟨_, _, by simpa only [Host.Outcome.next.injEq, eq_comm] using h⟩
  · exact .inl (by simpa [eq_comm] using h)

theorem execLdVxK_cases {x : Reg} (h : execLdVxK x s = .next t) :
    (s.latch = none ∧ t = { s.repeatInstr with latch := leastKeyDown s.keyPrev }) ∨
    ∃ k, s.latch = some k ∧
      ((s.keyPrev[k.val] = true ∧ s.key[k.val] = false ∧ t = { s.setReg x (s.hexKey k) with latch := none }) ∨
       (¬ (s.keyPrev[k.val] = true ∧ s.key[k.val] = false) ∧ t = s.repeatInstr)) := by
  unfold execLdVxK at h
  split at h
  · exact .inl ⟨‹_›, by simpa [eq_comm] using h⟩
  · rename_i k hk
    refine .inr ⟨k, hk, ?_⟩
    split at h
    · rename_i hc
      simp only [Bool.and_eq_true, Bool.not_eq_true'] at hc
      exact .inl ⟨hc.1, hc.2, by simpa [eq_comm] using h⟩
    · rename_i hc
      simp only [Bool.and_eq_true, Bool.not_eq_true'] at hc
      exact .inr ⟨hc, by simpa [eq_comm] using h⟩

theorem switchMode_cases (s : State) (b : Bool) :
    s.switchMode b = s ∨ s.switchMode b = { s with hires := b } ∨
    (s.cfg.modeSwitchEffect = .clear ∧ ∃ d, s.switchMode b = { s with hires := b, disp := d }) ∨
    (s.cfg.modeSwitchEffect = .havoc ∧ ∃ d k, s.switchMode b = { s with hires := b, disp := d, draws := k }) := by
  unfold State.switchMode
  split
  · exact .inl rfl
  · cases h : s.cfg.modeSwitchEffect with
    | keep => exact .inr (.inl rfl)
    | clear => exact .inr (.inr (.inl ⟨rfl, _, rfl⟩))
    | havoc => exact .inr (.inr (.inr ⟨rfl, _, _, rfl⟩))

theorem setLogicResult_cases (s : State) (x : Reg) (r : Byte) :
    s.setLogicResult x r = s.setRegThenFlag x r 0 ∨ s.setLogicResult x r = s.setReg x r := by
  unfold State.setLogicResult
  split
  · exact .inl rfl
  · exact .inr rfl

theorem skipIf_cases (s : State) (c : Bool) : s.skipIf c = s ∨ s.skipIf c = { s with pc := s.pc + 2 } := by
  cases c
  · exact .inl rfl
  · exact .inr rfl

/-! ### The whole instruction set -/

/-- The shape of every next state: which fields an instruction rewrites, and to what where a later proof needs it. -/
inductive Effect (i : Instr) (s t : State) : Prop where
  | nothing (he : t = s)
  | regs (hi : i.mnemonic ∈ ["LD_VX__NN", "ADD_VX__NN", "LD_VX__VY", "OR_VX__VY", "AND_VX__VY", "XOR_VX__VY",
      "ADD_VX__VY", "SUB_VX__VY", "SHR_VX__VY", "SUBN_VX__VY", "SHL_VX__VY", "LD_VX__DT", "LD_VX__R"])
      (v : Vector Byte 16) (he : t = { s with v := v })
  | random (hi : i.mnemonic = "RND_VX__NN") (v : Vector Byte 16) (k : Nat) (he : t = { s with v := v, draws := k })
  | skip (hi : i.mnemonic ∈ ["SE_VX__NN", "SNE_VX__NN", "SE_VX__VY", "SNE_VX__VY", "SKP_VX", "SKNP_VX"])
      (he : t = { s with pc := s.pc + 2 })
  | jump (nnn : Addr) (hi : i = .jp nnn) (he : t = { s with pc := nnn.setWidth 16 })
  | jumpOffset (nnn : Addr) (hi : i = .jpV0 nnn)
      (he : t = { s with pc := nnn.setWidth 16 + (s.jumpOffset nnn).setWidth 16 })
  | call (nnn : Addr) (hi : i = .call nnn) (hroom : s.stackHasRoom = true)
      (he : t = { s with pc := nnn.setWidth 16, stack := s.pc :: s.stack })
  | retEmpty (hi : i = .ret) (hs : s.stack = []) (he : t = { s with pc := 0x0200 })
  | ret (hi : i = .ret) (a : Word) (rest : List Word) (hs : s.stack = a :: rest) (he : t = { s with pc := a, stack := rest })
  | display (hi : i.mnemonic ∈ ["CLS", "SCD_N", "SCR", "SCL"]) (d : Display) (he : t = { s with disp := d })
  | mode (hi : i.mnemonic ∈ ["LOW", "HIGH"]) (b : Bool) (he : t = { s with hires := b })
  | modeAndDisplay (hi : i.mnemonic ∈ ["LOW", "HIGH"]) (hm : s.cfg.modeSwitchEffect = .clear) (b : Bool) (d : Display)
      (he : t = { s with hires := b, disp := d })
  | modeHavoc (hi : i.mnemonic ∈ ["LOW", "HIGH"]) (hm : s.cfg.modeSwitchEffect = .havoc) (b : Bool) (d : Display)
      (k : Nat) (he : t = { s with hires := b, disp := d, draws := k })
  | draw (x y : Reg) (n : Nibble) (hi : i = .drw x y n) (v : Vector Byte 16) (d : Display)
      (he : t = { s with v := v, disp := d, displayed := true })
  | index (hi : i.mnemonic ∈ ["LD_I__NNN", "ADD_I__VX", "LD_F__VX", "LD_HF__VX"]) (a : Word) (he : t = { s with i := a })
  | digits (x : Reg) (hi : i = .ldB x) (bytes : List Byte)
      (he : t = { s with mem := Memory.writeBlock s.mem (s.indexAddr 0) bytes })
  | storeRegs (x : Reg) (hi : i = .storeRegs x)
      (he : t = { s with mem := Memory.writeBlock s.mem (s.indexAddr 0) (s.regsUpTo x), i := s.indexAfterBlock x })
  | loadRegs (x : Reg) (hi : i = .loadRegs x) (v : Vector Byte 16) (he : t = { s with v := v, i := s.indexAfterBlock x })
  | flags (hi : i.mnemonic = "LD_R__VX") (hv : s.variant = .xochip) (f : Vector Byte 8) (he : t = { s with flags := f })
  | delayTimer (x : Reg) (hi : i = .ldDtVx x) (he : t = { s with dt := s.reg x })
  | soundTimer (x : Reg) (hi : i = .ldStVx x) (he : t = { s with st := s.reg x })
  | keyWait (hi : i.mnemonic = "LD_VX__K") (l : Option KeyIndex) (he : t = { s with pc := s.pc - 2, latch := l })
  | keyTaken (hi : i.mnemonic = "LD_VX__K") (v : Vector Byte 16) (he : t = { s with v := v, latch := none })

theorem exec_effect (h : exec i s = .next t) : Effect i s t := by
  have out : ∀ {u : State}, Host.Outcome.next (φ := Fault) (ρ := Refusal) u = .next t → t = u :=
    fun h => (Host.Outcome.next.inj h).symm
  have skips : ∀ {c}, i.mnemonic ∈ ["SE_VX__NN", "SNE_VX__NN", "SE_VX__VY", "SNE_VX__VY", "SKP_VX", "SKNP_VX"] →
      Host.Outcome.next (φ := Fault) (ρ := Refusal) (s.skipIf c) = .next t → Effect i s t := by
    intro c hi hc
    rcases skipIf_cases s c with hs | hs
    · exact .nothing ((out hc).trans hs)
    · exact .skip hi ((out hc).trans hs)
  have logic : ∀ {x r}, i.mnemonic ∈ ["OR_VX__VY", "AND_VX__VY", "XOR_VX__VY"] →
      Host.Outcome.next (φ := Fault) (ρ := Refusal) (s.setLogicResult x r) = .next t → Effect i s t := by
    intro x r hi hc
    have hi : i.mnemonic ∈ ["LD_VX__NN", "ADD_VX__NN", "LD_VX__VY", "OR_VX__VY", "AND_VX__VY", "XOR_VX__VY",
      "ADD_VX__VY", "SUB_VX__VY", "SHR_VX__VY", "SUBN_VX__VY", "SHL_VX__VY", "LD_VX__DT", "LD_VX__R"] := by
      simp only [List.mem_cons, List.not_mem_nil, or_false] at hi
      rcases hi with hi | hi | hi <;> rw [hi] <;> decide
    rcases setLogicResult_cases s x r with hs | hs
    · exact .regs hi _ ((out hc).trans hs)
    · exact .regs hi _ ((out hc).trans hs)
  have modes : ∀ {b}, i.mnemonic ∈ ["LOW", "HIGH"] →
      Host.Outcome.next (φ := Fault) (ρ := Refusal) (s.switchMode b) = .next t → Effect i s t := by
    intro b hi hc
    rcases switchMode_cases s b with hs | hs | ⟨hm, d, hs⟩ | ⟨hm, d, k, hs⟩
    · exact .nothing ((out hc).trans hs)
    · exact .mode hi b ((out hc).trans hs)
    · exact .modeAndDisplay hi hm b d ((out hc).trans hs)
    · exact .modeHavoc hi hm b d k ((out hc).trans hs)
  cases i with
  | cls => exact .display (by decide) _ (out h)
  | ret =>
    rcases execRet_cases h with ⟨hs, ht⟩ | ⟨a, rest, hs, ht⟩
    · exact .retEmpty rfl hs ht
    · exact .ret rfl a rest hs ht
  | scd n =>
    rcases execScd_cases h with ht | ⟨f, ht⟩
    · exact .nothing ht
    · exact .display (by simp [Instr.mnemonic]) _ ht
  | scr => exact .display (by decide) _ (out h)
  | scl => exact .display (by decide) _ (out h)
  | low => exact modes (by decide) h
  | high => exact modes (by decide) h
  | jp nnn => exact .jump nnn rfl (out h)
  | call nnn => exact .call nnn rfl (execCall_cases h).1 (execCall_cases h).2
  | seImm x nn => exact skips (by simp [Instr.mnemonic]) h
  | sneImm x nn => exact skips (by simp [Instr.mnemonic]) h
  | seReg x y => exact skips (by simp [Instr.mnemonic]) h
  | sneReg x y => exact skips (by simp [Instr.mnemonic]) h
  | skp x => exact skips (by simp [Instr.mnemonic]) h
  | sknp x => exact skips (by simp [Instr.mnemonic]) h
  | ldImm x nn => exact .regs (by simp [Instr.mnemonic]) _ (out h)
  | addImm x nn => exact .regs (by simp [Instr.mnemonic]) _ (out h)
  | ldReg x y => exact .regs (by simp [Instr.mnemonic]) _ (out h)
  | orReg x y => exact logic (by simp [Instr.mnemonic]) h
  | andReg x y => exact logic (by simp [Instr.mnemonic]) h
  | xorReg x y => exact logic (by simp [Instr.mnemonic]) h
  | addReg x y => exact .regs (by simp [Instr.mnemonic]) _ (out h)
  | subReg x y => exact .regs (by simp [Instr.mnemonic]) _ (out h)
  | shr x y => exact .regs (by simp [Instr.mnemonic]) _ (out h)
  | subn x y => exact .regs (by simp [Instr.mnemonic]) _ (out h)
  | shl x y => exact .regs (by simp [Instr.mnemonic]) _ (out h)
  | ldI nnn => exact .index (by simp [Instr.mnemonic]) _ (out h)
  | jpV0 nnn => exact .jumpOffset nnn rfl (out h)
  | rnd x nn => exact .random rfl _ _ (out h)
  | drw x y n => exact .draw x y n rfl _ _ (out h)
  | ldVxDt x => exact .regs (by simp [Instr.mnemonic]) _ (out h)
  | ldVxK x =>
    rcases execLdVxK_cases h with ⟨_, ht⟩ | ⟨k, hk, ⟨_, _, ht⟩ | ⟨_, ht⟩⟩
    · exact .keyWait rfl _ ht
    · exact .keyTaken rfl _ ht
    · exact .keyWait rfl s.latch ht
  | ldDtVx x => exact .delayTimer x rfl (out h)
  | ldStVx x => exact .soundTimer x rfl (out h)
  | addI x => exact .index (by simp [Instr.mnemonic]) _ (out h)
  | ldF x => exact .index (by simp [Instr.mnemonic]) _ (out h)
  | ldHf x =>
    rcases execLdHf_cases h with ht | ht
    · exact .nothing ht
    · exact .index (by simp [Instr.mnemonic]) _ ht
  | ldB x => exact .digits x rfl _ (out h)
  | storeRegs x => exact .storeRegs x rfl (out h)
  | loadRegs x => exact .loadRegs x rfl _ (out h)
  | storeFlags x =>
    rcases execStoreFlags_cases h with ht | ⟨hv, f, ht⟩
    · exact .nothing ht
    · exact .flags rfl hv f ht
  | loadFlags x =>
    rcases execLoadFlags_cases h with ht | ⟨k, g, ht⟩
    · exact .nothing ht
    · exact .regs (by simp [Instr.mnemonic]) _ ht
  | unmatched w => exact .nothing (out h)

/-- An instruction completes, but for the two refusals that the parameters give rise to. -/
theorem exec_next_or_refused (i : Instr) (s : State) :
    (∃ t, exec i s = .next t) ∨
    (exec i s = .refused .stackFull ∧ (∃ nnn, i = .call nnn) ∧ s.stackHasRoom = false) ∨
    (exec i s = .refused .flagTransferTooLong ∧ s.variant = .xochip ∧
      ∃ x, s.refusesFlagTransfer x = true ∧ (i = .storeFlags x ∨ i = .loadFlags x)) := by
  cases i with
  | ret =>
    left
    cases hs : s.stack with
    | nil => exact ⟨_, by simp only [exec, execRet, hs]; rfl⟩
    | cons a rest => exact ⟨_, by simp only [exec, execRet, hs]; rfl⟩
  | scd n =>
    left
    cases hv : s.variant.isSuper
    · exact ⟨s, by simp only [exec, execScd, hv, Bool.false_eq_true, if_false]⟩
    · exact ⟨_, by simp only [exec, execScd, hv, if_true]; rfl⟩
  | ldHf x =>
    left
    cases hv : s.variant.isSuper
    · exact ⟨s, by simp only [exec, execLdHf, hv, Bool.false_eq_true, if_false]⟩
    · exact ⟨_, by simp only [exec, execLdHf, hv, if_true]; rfl⟩
  | call nnn =>
    cases hr : s.stackHasRoom
    · exact .inr (.inl ⟨by simp only [exec, execCall, hr, Bool.false_eq_true, if_false], ⟨nnn, rfl⟩, rfl⟩)
    · exact .inl ⟨_, by simp only [exec, execCall, hr, if_true]; rfl⟩
  | ldVxK x =>
    left
    cases hl : s.latch with
    | none => exact ⟨_, by simp only [exec, execLdVxK, hl]; rfl⟩
    | some k =>
      cases hc : s.keyPrev[k.val] && !s.key[k.val]
      · exact ⟨_, by simp only [exec, execLdVxK, hl, hc, Bool.false_eq_true, if_false]; rfl⟩
      · exact ⟨_, by simp only [exec, execLdVxK, hl, hc, if_true]; rfl⟩
  | storeFlags x =>
    cases hv : s.variant.isXo
    · exact .inl ⟨s, by simp only [exec, execStoreFlags, hv, Bool.false_eq_true, if_false]⟩
    · cases hr : s.refusesFlagTransfer x
      · exact .inl ⟨_, by simp only [exec, execStoreFlags, hv, hr, Bool.false_eq_true, if_false, if_true]; rfl⟩
      · exact .inr (.inr ⟨by simp only [exec, execStoreFlags, hv, hr, if_true], isXo_iff.mp hv, x, hr, .inl rfl⟩)
  | loadFlags x =>
    cases hv : s.variant.isXo
    · exact .inl ⟨s, by simp only [exec, execLoadFlags, hv, Bool.false_eq_true, if_false]⟩
    · cases hr : s.refusesFlagTransfer x
      · exact .inl ⟨_, by simp only [exec, execLoadFlags, hv, hr, Bool.false_eq_true, if_false, if_true]; rfl⟩
      · exact .inr (.inr ⟨by simp only [exec, execLoadFlags, hv, hr, if_true], isXo_iff.mp hv, x, hr, .inr rfl⟩)
  | _ => exact .inl ⟨_, rfl⟩

/-! ### One step (R120) -/

/-- A step, with what it adds around the instruction. -/
theorem step_eq (s : State) : step s = Outcome.andThen (exec s.nextInstr s.beginStep) State.endStep := rfl

/-- Everything one step can do. -/
theorem step_next (h : step s = .next t) :
    ∃ u, exec s.nextInstr s.beginStep = .next u ∧ Effect s.nextInstr s.beginStep u ∧ t = u.endStep := by
  obtain ⟨u, hu, ht⟩ := Outcome.andThen_eq_next.mp h
  exact ⟨u, hu, exec_effect hu, ht⟩

/-- A run of one step more. -/
theorem run_succ (h : step s = .next t) (n : Nat) : Host.Core.run Sys2Proof.core (n + 1) s = Host.Core.run Sys2Proof.core n t := by
  have h' : Sys2Proof.core.step s = .next t := h
  simp only [Host.Core.run, h']

end Sys2Proof.Machine
end

