-- ==== Sys2Proof/Laws/Environment.lean ====
section
/-! SUPPORT. The environment's operations: sequences, the output list, and LOAD_FONT as two block writes. -/

namespace Sys2Proof.Machine

theorem boundPc_boundPc (pc : Word) : boundPc (boundPc pc) = boundPc pc := by
  have h := boundPc_lt pc
  rw [boundPc_eq (boundPc pc), if_neg (by omega)]

/-! ### Sequences (R8, R9) -/

theorem runOps_cons {op : Op} {s t : State} (h : op.perform s = .next t) (rest : List Op) :
    runOps (op :: rest) s = runOps rest t := by
  show (match op.perform s with
    | .next t => runOps rest t
    | .fault r => .fault r
    | .refused r => if r.ofEnvironment then runOps rest s else .refused r) = _
  rw [h]

/-- Steps that lead from a state back to it may be left out. -/
theorem runOps_replicate_step {s : State} (h : step s = .next s) (n : Nat) (rest : List Op) :
    runOps (List.replicate n .step ++ rest) s = runOps rest s := by
  induction n with
  | zero => rfl
  | succ n ih =>
    rw [List.replicate_succ, List.cons_append, runOps_cons (op := .step) h]
    exact ih

/-! ### Timers (R296) -/

theorem timerDown_toNat : ∀ b : Byte, (if b = 0 then 0 else b - 1 : Byte).toNat = b.toNat - 1 := by decide

/-! ### Outputs (R302) -/

/-- A table read row by row. -/
theorem rows_getElem? (h w : Nat) (f : Nat → Nat → Bool) :
    ((List.range h).flatMap fun y => (List.range w).map fun x => f y x).length = h * w ∧
    ∀ y x, y < h → x < w →
      ((List.range h).flatMap fun y => (List.range w).map fun x => f y x)[y * w + x]? = some (f y x) := by
  induction h with
  | zero => simp
  | succ h ih =>
    rw [List.range_succ, List.flatMap_append]
    simp only [List.length_append, List.flatMap_singleton, List.length_map, List.length_range, ih.1]
    refine ⟨by ring, fun y x hy hx => ?_⟩
    by_cases hlt : y < h
    · rw [List.getElem?_append_left, ih.2 y x hlt hx]
      rw [ih.1]
      calc y * w + x < y * w + w := by omega
        _ = (y + 1) * w := by ring
        _ ≤ h * w := Nat.mul_le_mul_right _ hlt
    · have : y = h := by omega
      subst this
      rw [List.getElem?_append_right (by rw [ih.1]; omega), ih.1]
      simp [hx]

/-! ### LOAD_FONT (R322) -/

@[simp] theorem hifontBytes_length (s : State) : s.hifontBytes.length = 160 := by simp [State.hifontBytes]

theorem loadFont_mem (s : State) :
    (loadFont s).mem =
      if s.variant.isSuper then
        Memory.writeBlock (Memory.writeBlock s.mem s.cfg.lowfontBase.toNat s.cfg.lowfont.toList)
          s.cfg.hifontBase.toNat s.hifontBytes
      else Memory.writeBlock s.mem s.cfg.lowfontBase.toNat s.cfg.lowfont.toList := rfl

end Sys2Proof.Machine
end

