-- ==== Sys2Proof/Laws/PerInstr.lean ====
section
/-! SUPPORT. Statements made per instruction. `RoundTrip`: an instruction that a variant has is what its word decodes to. -/

namespace Sys2Proof.Laws.RoundTrip

/-- Decoding the word of an instruction, under any variant that has it, gives the instruction back. -/
def Statement (i : Instr) : Prop := ∀ v : Variant, i.wf v = true → decode v (encode i) = i

theorem cls : Statement .cls := fun _ _ => rfl

theorem ret : Statement .ret := fun _ _ => rfl

theorem scd (n : Nibble) : Statement (.scd n) := by
  intro v h
  have hw : (encode (.scd n)).toNat = 192 + n.toNat := by
    have := wordXYN_toNat 0x0 0x0 0xC n
    simpa [encode] using this
  have hn := n.isLt
  have hA : fieldA (encode (.scd n)) = 0x0#4 := by simp [encode]
  have hN : fieldN (encode (.scd n)) = n := by simp [encode]
  have hmid : (encode (.scd n)).extractLsb' 4 8 = 0x0C#8 := by
    apply BitVec.eq_of_toNat_eq
    simp only [BitVec.extractLsb'_toNat, hw, Nat.shiftRight_eq_div_pow, BitVec.toNat_ofNat]
    omega
  have hNNN : (fieldNNN (encode (.scd n))).toNat = 192 + n.toNat := by rw [fieldNNN_toNat, hw]; omega
  have hsup : v.isSuper = true := h
  unfold decode
  rw [hA]
  show decodeSystem v _ = _
  unfold decodeSystem
  split
  all_goals first
    | (rename_i heq; rw [heq] at hNNN; simp at hNNN; omega)
    | simp [hsup, hmid, hN]

theorem scr : Statement .scr := fun _ _ => rfl

theorem scl : Statement .scl := fun _ _ => rfl

theorem low : Statement .low := fun _ _ => rfl

theorem high : Statement .high := fun _ _ => rfl

theorem jp (nnn : Addr) : Statement (.jp nnn) := by
  intro v _
  simp [decode, encode]

theorem call (nnn : Addr) : Statement (.call nnn) := by
  intro v _
  simp [decode, encode]

theorem seImm (x : Reg) (nn : Byte) : Statement (.seImm x nn) := by
  intro v _
  simp [decode, encode]

theorem sneImm (x : Reg) (nn : Byte) : Statement (.sneImm x nn) := by
  intro v _
  simp [decode, encode]

theorem seReg (x y : Reg) : Statement (.seReg x y) := by
  intro v _
  simp [decode, encode]

theorem ldImm (x : Reg) (nn : Byte) : Statement (.ldImm x nn) := by
  intro v _
  simp [decode, encode]

theorem addImm (x : Reg) (nn : Byte) : Statement (.addImm x nn) := by
  intro v _
  simp [decode, encode]

theorem ldReg (x y : Reg) : Statement (.ldReg x y) := by
  intro v _
  simp [decode, encode, decodeAlu]

theorem orReg (x y : Reg) : Statement (.orReg x y) := by
  intro v _
  simp [decode, encode, decodeAlu]

theorem andReg (x y : Reg) : Statement (.andReg x y) := by
  intro v _
  simp [decode, encode, decodeAlu]

theorem xorReg (x y : Reg) : Statement (.xorReg x y) := by
  intro v _
  simp [decode, encode, decodeAlu]

theorem addReg (x y : Reg) : Statement (.addReg x y) := by
  intro v _
  simp [decode, encode, decodeAlu]

theorem subReg (x y : Reg) : Statement (.subReg x y) := by
  intro v _
  simp [decode, encode, decodeAlu]

theorem shr (x y : Reg) : Statement (.shr x y) := by
  intro v _
  simp [decode, encode, decodeAlu]

theorem subn (x y : Reg) : Statement (.subn x y) := by
  intro v _
  simp [decode, encode, decodeAlu]

theorem shl (x y : Reg) : Statement (.shl x y) := by
  intro v _
  simp [decode, encode, decodeAlu]

theorem sneReg (x y : Reg) : Statement (.sneReg x y) := by
  intro v _
  simp [decode, encode]

theorem ldI (nnn : Addr) : Statement (.ldI nnn) := by
  intro v _
  simp [decode, encode]

theorem jpV0 (nnn : Addr) : Statement (.jpV0 nnn) := by
  intro v _
  simp [decode, encode]

theorem rnd (x : Reg) (nn : Byte) : Statement (.rnd x nn) := by
  intro v _
  simp [decode, encode]

theorem drw (x y : Reg) (n : Nibble) : Statement (.drw x y n) := by
  intro v _
  simp [decode, encode]

theorem skp (x : Reg) : Statement (.skp x) := by
  intro v _
  simp [decode, encode, decodeKey]

theorem sknp (x : Reg) : Statement (.sknp x) := by
  intro v _
  simp [decode, encode, decodeKey]

theorem ldVxDt (x : Reg) : Statement (.ldVxDt x) := by
  intro v _
  simp [decode, encode, decodeMisc]

theorem ldVxK (x : Reg) : Statement (.ldVxK x) := by
  intro v _
  simp [decode, encode, decodeMisc]

theorem ldDtVx (x : Reg) : Statement (.ldDtVx x) := by
  intro v _
  simp [decode, encode, decodeMisc]

theorem ldStVx (x : Reg) : Statement (.ldStVx x) := by
  intro v _
  simp [decode, encode, decodeMisc]

theorem addI (x : Reg) : Statement (.addI x) := by
  intro v _
  simp [decode, encode, decodeMisc]

theorem ldF (x : Reg) : Statement (.ldF x) := by
  intro v _
  simp [decode, encode, decodeMisc]

theorem ldHf (x : Reg) : Statement (.ldHf x) := by
  intro v h
  simpa [decode, encode, decodeMisc, Instr.wf] using h

theorem ldB (x : Reg) : Statement (.ldB x) := by
  intro v _
  simp [decode, encode, decodeMisc]

theorem storeRegs (x : Reg) : Statement (.storeRegs x) := by
  intro v _
  simp [decode, encode, decodeMisc]

theorem loadRegs (x : Reg) : Statement (.loadRegs x) := by
  intro v _
  simp [decode, encode, decodeMisc]

theorem storeFlags (x : Reg) : Statement (.storeFlags x) := by
  intro v h
  simpa [decode, encode, decodeMisc, Instr.wf] using h

theorem loadFlags (x : Reg) : Statement (.loadFlags x) := by
  intro v h
  simpa [decode, encode, decodeMisc, Instr.wf] using h

theorem unmatched (w : Word) : Statement (.unmatched w) := by
  intro v h
  have hw := w.isLt
  have hA := fieldA_toNat w
  have hN := fieldN_toNat w
  have hNN := fieldNN_toNat w
  have hNNN := fieldNNN_toNat w
  simp only [Instr.wf, isUnmatchedWord] at h
  show decode v w = _
  rcases nibble_cases (fieldA w) with e | e | e | e | e | e | e | e | e | e | e | e | e | e | e | e
  all_goals
    rw [e] at hA
    simp only [← hA, BitVec.toNat_ofNat, BitVec.ofNat_eq_ofNat, Nat.reduceMod, Nat.reducePow, Bool.false_eq_true] at h
  · rw [decode_0 e]
    unfold decodeSystem
    split
    all_goals first
      | (rename_i h'; rw [h'] at hNNN; simp [systemWords, ← hNNN] at h)
      | skip
    rw [if_neg]
    rintro hc
    simp only [Bool.and_eq_true, beq_iff_eq] at hc
    have := congrArg BitVec.toNat hc.2
    simp only [BitVec.extractLsb'_toNat, Nat.shiftRight_eq_div_pow, BitVec.toNat_ofNat] at this
    simp [hc.1] at h
    omega
  · rw [decode_5 e, if_neg]
    rw [beq_iff_eq]
    intro h0
    rw [h0] at hN
    simp [← hN] at h
  · rw [decode_8 e]
    unfold decodeAlu
    split
    all_goals first
      | rfl
      | (rename_i h'; rw [h'] at hN; simp [← hN] at h)
  · rw [decode_9 e, if_neg]
    rw [beq_iff_eq]
    intro h0
    rw [h0] at hN
    simp [← hN] at h
  · rw [decode_E e]
    unfold decodeKey
    split
    all_goals first
      | rfl
      | (rename_i h'; rw [h'] at hNN; simp [← hNN] at h)
  · rw [decode_F e]
    unfold decodeMisc
    split
    all_goals first
      | rfl
      | (rename_i h'; rw [h'] at hNN; simp [← hNN, miscWords] at h; simp [h])
      | (rename_i h'; rw [h'] at hNN; simp [← hNN, miscWords] at h)

end Sys2Proof.Laws.RoundTrip
end

