-- ==== Sys2Proof/Tests/Slice0.lean ====
section
/-! SUPPORT. Tests with expected results from spec/95_test_vectors.md and spec/30_encoding.md, and a witness for the
hypotheses of each statement. -/

namespace Sys2Proof.Tests

open Sys2Proof Sys2Proof.Machine

/-! ### WellFormed: one ill-formed term for each check -/

theorem test_wf_refuses_scd_on_chip8 : (Instr.scd 2).wf .chip8 = false := by decide
theorem test_wf_refuses_ldHf_on_chip8 : (Instr.ldHf 2).wf .chip8 = false := by decide
theorem test_wf_refuses_storeFlags_off_xochip :
    (Instr.storeFlags 1).wf .chip8 = false ∧ (Instr.storeFlags 1).wf .schip1_1 = false := by decide
theorem test_wf_refuses_loadFlags_off_xochip :
    (Instr.loadFlags 1).wf .chip8 = false ∧ (Instr.loadFlags 1).wf .schip1_0 = false := by decide
theorem test_wf_refuses_unmatched_of_a_decoded_word :
    (Instr.unmatched 0x00E0).wf .chip8 = false ∧ (Instr.unmatched 0x00C0).wf .xochip = false ∧
    (Instr.unmatched 0x5120).wf .chip8 = false ∧ (Instr.unmatched 0x812E).wf .chip8 = false ∧
    (Instr.unmatched 0x9120).wf .chip8 = false ∧ (Instr.unmatched 0xE19E).wf .chip8 = false ∧
    (Instr.unmatched 0xF130).wf .schip1_0 = false ∧ (Instr.unmatched 0xD123).wf .chip8 = false := by decide

/-! ### Decoding: words written out from the patterns of R94, every row (words of spec/95_test_vectors.md) -/

theorem test_decode_display_rows :
    decode .chip8 0x00E0 = .cls ∧ decode .schip1_0 0x00C3 = .scd 3 ∧ decode .chip8 0x00FB = .scr ∧
    decode .chip8 0x00FC = .scl ∧ decode .chip8 0x00FE = .low ∧ decode .chip8 0x00FF = .high := by decide
theorem test_decode_flow_rows :
    decode .chip8 0x00EE = .ret ∧ decode .chip8 0x1FFF = .jp 0xFFF ∧ decode .chip8 0x2300 = .call 0x300 ∧
    decode .chip8 0x3310 = .seImm 3 0x10 ∧ decode .chip8 0x4311 = .sneImm 3 0x11 ∧ decode .chip8 0x5140 = .seReg 1 4 ∧
    decode .chip8 0x9140 = .sneReg 1 4 ∧ decode .chip8 0xB300 = .jpV0 0x300 := by decide
theorem test_decode_alu_rows :
    decode .chip8 0x6F2A = .ldImm 15 0x2A ∧ decode .chip8 0x72FF = .addImm 2 0xFF ∧ decode .chip8 0x8140 = .ldReg 1 4 ∧
    decode .chip8 0x8121 = .orReg 1 2 ∧ decode .chip8 0x8122 = .andReg 1 2 ∧ decode .chip8 0x8123 = .xorReg 1 2 ∧
    decode .chip8 0x8124 = .addReg 1 2 ∧ decode .chip8 0x8125 = .subReg 1 2 ∧ decode .chip8 0x8126 = .shr 1 2 ∧
    decode .chip8 0x8127 = .subn 1 2 ∧ decode .chip8 0x812E = .shl 1 2 ∧ decode .chip8 0xC30F = .rnd 3 0x0F := by decide
theorem test_decode_index_rows :
    decode .chip8 0xA2F0 = .ldI 0x2F0 ∧ decode .chip8 0xF21E = .addI 2 ∧ decode .chip8 0xF329 = .ldF 3 ∧
    decode .schip1_1 0xF430 = .ldHf 4 ∧ decode .chip8 0xF533 = .ldB 5 ∧ decode .chip8 0xF255 = .storeRegs 2 ∧
    decode .chip8 0xF165 = .loadRegs 1 ∧ decode .xochip 0xFF75 = .storeFlags 15 ∧
    decode .xochip 0xF285 = .loadFlags 2 := by decide
theorem test_decode_draw_key_timer_rows :
    decode .chip8 0xD1F2 = .drw 1 15 2 ∧ decode .chip8 0xE29E = .skp 2 ∧ decode .chip8 0xE2A1 = .sknp 2 ∧
    decode .chip8 0xF10A = .ldVxK 1 ∧ decode .chip8 0xF507 = .ldVxDt 5 ∧ decode .chip8 0xF415 = .ldDtVx 4 ∧
    decode .chip8 0xF418 = .ldStVx 4 := by decide
/-- The unmatched words of T40.6. -/
theorem test_decode_unmatched_words :
    ([0x5121, 0x8128, 0xE200, 0xF2FF, 0xF230, 0xF175, 0x00C1, 0x0123] : List Word).all
      (fun w => decode .chip8 w == .unmatched w) ∧
    ([0xF175, 0xF185, 0x00FD, 0x00B1] : List Word).all
      (fun w => decode .schip1_0 w == .unmatched w && decode .schip1_1 w == .unmatched w) ∧
    ([0x00FD, 0xF000, 0x5122, 0x5123, 0x00D1, 0xF002, 0xF13A, 0xF201] : List Word).all
      (fun w => decode .xochip w == .unmatched w) := by decide
theorem test_decodeTableWord : decodeTableWord 16 0xD123 = some (.drw 1 2 3) := by decide

/-! ### One step on a small state -/

/-- A created core with some registers set and a word where it fetches. -/
def start (v : Variant) (w : Word) (regs : List (Reg × Byte)) : State :=
  (regs.foldl (fun s r => s.setReg r.1 r.2) (State.create defaultParams v)).placeWord w

/-- What is seen of the next state. -/
def seen {α : Type} (f : State → α) : Outcome → Option α
  | .next t => some (f t)
  | .fault _ => none
  | .refused _ => none

/-- A display with these cells (column, row) lit. -/
def litDisplay (cells : List (Nat × Nat)) : Display :=
  cells.foldl (fun d c => Display.put d c.2 c.1 true) (State.create defaultParams .chip8).disp

/-- T40.1, T40.2, T40.4. -/
theorem test_step_unmatched :
    seen (fun t => (t.pc, t.v, t.mem)) (step State.reset) = some (0x0202, State.reset.v, []) := by decide
theorem test_step_pc_bound : seen (fun t => (t.pc, t.reg 10, t.reg 11))
    (step { start .chip8 0x6A01 [] with pc := 0x1000 }) = some (0x0202, 0x01, 0x00) := by decide
theorem test_step_fetch_wraps : seen (fun t => t.pc)
    (step { State.reset with pc := 0x0FFF, mem := [(0x000, 0x34), (0xFFF, 0x12)] }) = some 0x0234 := by decide
/-- T40.8. -/
theorem test_step_snapshot : seen (fun t => (t.key[7], t.keyPrev[7]))
    (runOps [.key 7 true, .step, .key 7 false] (start .chip8 0x6000 [])) = some (false, true) := by decide

/-- T42.2, T42.1, T42.3, T42.17. -/
theorem test_ret : seen (fun t => (t.pc, t.stack))
    (step { start .chip8 0x00EE [] with stack := [0x0310, 0x0204] }) = some (0x0310, [0x0204]) := by decide
theorem test_ret_empty : seen (fun t => (t.pc, t.stack)) (step (start .chip8 0x00EE [])) = some (0x0200, []) := by decide
theorem test_call : seen (fun t => (t.pc, t.stack)) (step (start .chip8 0x2300 [])) = some (0x0300, [0x0202]) := by decide
theorem test_jp : seen (fun t => t.pc) (step (start .chip8 0x1FFF [])) = some 0x0FFF := by decide
/-- T42.6 to T42.13. -/
theorem test_skips_taken : [0x3310, 0x4311, 0x5120, 0x9140].map
    (fun w => seen (fun t => t.pc) (step (start .chip8 w [(1, 7), (2, 7), (3, 0x10), (4, 8)]))) =
    List.replicate 4 (some 0x0204) := by decide
theorem test_skips_not_taken : [0x3311, 0x4310, 0x5140, 0x9120].map
    (fun w => seen (fun t => t.pc) (step (start .chip8 w [(1, 7), (2, 7), (3, 0x10), (4, 8)]))) =
    List.replicate 4 (some 0x0202) := by decide
/-- T42.20, T42.21. -/
theorem test_jpV0 : seen (fun t => t.pc) (step (start .xochip 0xB300 [(0, 4), (3, 0x10)])) = some 0x0304 ∧
    seen (fun t => t.pc) (step (start .schip1_0 0xB300 [(0, 4), (3, 0x10)])) = some 0x0310 ∧
    seen (fun t => t.pc) (step (start .schip1_1 0xBFFF [(0, 4), (15, 0xFF)])) = some 0x10FE := by decide

/-- T43.1, T43.6, T43.8. -/
theorem test_add : seen (fun t => (t.reg 1, t.reg 2, t.reg 15)) (step (start .chip8 0x8124 [(1, 0xFF), (2, 0x01)])) =
    some (0x00, 0x01, 1) := by decide
theorem test_add_into_vf : seen (fun t => t.reg 15) (step (start .chip8 0x8F14 [(15, 0xF0), (1, 0x20)])) = some 1 ∧
    seen (fun t => (t.reg 1, t.reg 15)) (step (start .chip8 0x81F4 [(15, 0x05), (1, 0x10)])) = some (0x15, 0) := by decide
/-- T43.10, T43.12, T43.15, T43.17, T43.18, T43.20. -/
theorem test_sub : seen (fun t => (t.reg 1, t.reg 15)) (step (start .chip8 0x8125 [(1, 5), (2, 7)])) = some (0xFE, 0) ∧
    seen (fun t => (t.reg 1, t.reg 15)) (step (start .chip8 0x8125 [(1, 7), (2, 7)])) = some (0, 1) ∧
    seen (fun t => t.reg 15) (step (start .chip8 0x8F15 [(15, 9), (1, 3)])) = some 1 := by decide
theorem test_subn : seen (fun t => (t.reg 1, t.reg 15)) (step (start .chip8 0x8127 [(1, 5), (2, 7)])) = some (2, 1) ∧
    seen (fun t => (t.reg 1, t.reg 15)) (step (start .chip8 0x8127 [(1, 7), (2, 5)])) = some (0xFE, 0) ∧
    seen (fun t => t.reg 15) (step (start .chip8 0x8F17 [(15, 9), (1, 3)])) = some 0 := by decide
/-- T43.21, T43.24, T43.25, T43.26, T43.28. -/
theorem test_shr : seen (fun t => (t.reg 1, t.reg 15)) (step (start .chip8 0x8126 [(1, 5), (2, 8)])) = some (4, 0) ∧
    seen (fun t => (t.reg 1, t.reg 15)) (step (start .xochip 0x8126 [(1, 5), (2, 8)])) = some (2, 1) ∧
    seen (fun t => t.reg 15) (step (start .chip8 0x8F26 [(2, 3)])) = some 1 ∧
    seen (fun t => (t.reg 1, t.reg 15)) (step (start .chip8 0x81F6 [(1, 4), (15, 1)])) = some (0, 1) := by decide
theorem test_shl : seen (fun t => (t.reg 1, t.reg 15)) (step (start .chip8 0x812E [(1, 0x81), (2, 0x40)])) = some (0x80, 0) ∧
    seen (fun t => (t.reg 1, t.reg 15)) (step (start .schip1_0 0x812E [(1, 0x81), (2, 0x40)])) = some (2, 1) ∧
    seen (fun t => t.reg 15) (step (start .chip8 0x8F2E [(2, 0x80)])) = some 1 := by decide
/-- T43.30 to T43.33. -/
theorem test_or : seen (fun t => (t.reg 1, t.reg 15)) (step (start .chip8 0x8121 [(1, 0xC), (2, 0xA), (15, 1)])) =
    some (0xE, 0) ∧ seen (fun t => t.reg 15) (step (start .schip1_0 0x8F21 [(15, 5), (2, 0xA)])) = some 0xF := by decide
theorem test_and : seen (fun t => (t.reg 1, t.reg 15)) (step (start .xochip 0x8122 [(1, 0xC), (2, 0xA), (15, 1)])) =
    some (8, 1) := by decide
theorem test_xor : seen (fun t => (t.reg 1, t.reg 15)) (step (start .chip8 0x8123 [(1, 0xC), (2, 0xA), (15, 1)])) =
    some (6, 0) := by decide
/-- T43.37 to T43.40. -/
theorem test_addImm : seen (fun t => (t.reg 2, t.reg 15)) (step (start .chip8 0x7202 [(2, 0xFF), (15, 9)])) =
    some (1, 9) := by decide
theorem test_ldImm : seen (fun t => t.reg 15) (step (start .chip8 0x6F2A [])) = some 0x2A := by decide
theorem test_ldReg : seen (fun t => (t.reg 1, t.reg 4)) (step (start .chip8 0x8140 [(4, 0x33)])) = some (0x33, 0x33) := by
  decide
/-- T43.42, T43.43: for a given random byte; a mask of 0 hides the free value. -/
theorem test_rnd : ((start .chip8 0 [(15, 3)]).randomInto 3 0x0F 0xB7).reg 3 = 0x07 := by decide

/-- T44.1, T44.2, T44.3. -/
theorem test_ldI : seen (fun t => t.i) (step (start .chip8 0xAFFF [])) = some 0x0FFF := by decide
theorem test_addI : seen (fun t => (t.i, t.reg 15))
    (step { start .chip8 0xF21E [(2, 5), (15, 7)] with i := 0x0FFE }) = some (0x1003, 7) ∧
    seen (fun t => t.i) (step { start .chip8 0xF21E [(2, 2)] with i := 0xFFFF }) = some 0x0001 := by decide
/-- T44.6, T44.7, T44.8. -/
theorem test_ldF : seen (fun t => t.i) (step (start .chip8 0xF329 [(3, 0x3A)])) = some 0x0032 ∧
    seen (fun t => t.i) (step (start .chip8 0xF329 [(3, 0x0F)])) = some 0x004B := by decide
theorem test_ldHf : seen (fun t => t.i) (step (start .schip1_1 0xF430 [(4, 0xFF)])) = some 0x00E6 ∧
    seen (fun t => t.i) (step { start .chip8 0xF430 [(4, 0x03)] with i := 0x0123 }) = some 0x0123 := by decide
/-- T44.9. -/
theorem test_ldB : seen (fun t => (Memory.read t.mem 0xFFF, Memory.read t.mem 0x000, Memory.read t.mem 0x001, t.i))
    (step { start .chip8 0xF533 [(5, 0xFE)] with i := 0x0FFF }) = some (2, 5, 4, 0x0FFF) := by decide
/-- T44.13. -/
theorem test_storeRegs : seen (fun t => (Memory.read t.mem 0xFFE, Memory.read t.mem 0x000, Memory.read t.mem 0x001, t.i))
    (step { start .chip8 0xF255 [(0, 0x11), (1, 0x22), (2, 0x33)] with i := 0x0FFE }) = some (0x11, 0x33, 0, 0x1001) := by
  decide
/-- T44.15, T44.14. -/
theorem test_loadRegs : seen (fun t => (t.reg 0, t.reg 1, t.reg 2, t.i))
    (step { (start .chip8 0xF165 [(2, 0x77)]) with
      mem := [(0x000, 0x6B), (0x200, 0xF1), (0x201, 0x65), (0xFFF, 0x5A)], i := 0x0FFF }) =
    some (0x5A, 0x6B, 0x77, 0x1001) := by decide
/-- T44.17, T44.18. -/
theorem test_storeFlags : seen (fun t => t.flags)
    (step { start .xochip 0xF175 [(0, 0x10), (1, 0x11)] with flags := #v[1, 2, 3, 4, 5, 6, 7, 8] }) =
    some #v[0x10, 0x11, 3, 4, 5, 6, 7, 8] := by decide
/-- T44.19. -/
theorem test_loadFlags : seen (fun t => (t.reg 0, t.reg 7, t.reg 8))
    (step { start .xochip 0xFF85 [(8, 0x18)] with flags := #v[1, 2, 3, 4, 5, 6, 7, 8] }) = some (1, 8, 0x18) := by decide

/-- T45.1, T45.6. -/
theorem test_draw_one_row : seen (fun t => (Display.get t.disp 1 2, Display.get t.disp 1 3, Display.get t.disp 1 4,
      t.reg 15, t.displayed))
    (step { start .chip8 0xD121 [(1, 2), (2, 1)] with i := 0x0300, mem := [(0x200, 0xD1), (0x201, 0x21), (0x300, 0xC0)] }) =
    some (true, true, false, 0, true) := by decide +kernel
/-- T45.10: the clipped pixel does not collide, the wrapped one does. -/
theorem test_draw_edge : [Variant.chip8, .schip1_0, .schip1_1, .xochip].map
    (fun v => seen (fun t => (Display.get t.disp 0 0, Display.get t.disp 0 63, t.reg 15))
      (step { start v 0xD011 [(0, 60)] with
        i := 0x0300, mem := [(0x200, 0xD0), (0x201, 0x11), (0x300, 0xFF)], disp := litDisplay [(0, 0)] })) =
    [some (true, true, 0), some (true, true, 0), some (false, true, 1), some (false, true, 1)] := by decide +kernel
/-- T45.4: a big sprite, its last row. -/
theorem test_draw_big : seen (fun t => (Display.get t.disp 15 0, Display.get t.disp 15 14, Display.get t.disp 15 15))
    (step { start .xochip 0xD010 [] with i := 0x0300, mem := [(0x200, 0xD0), (0x201, 0x10), (0x31E, 0x80), (0x31F, 0x01)] }) =
    some (true, false, true) := by decide +kernel

/-- T41.1: the cell outside the lo-res window is cleared too. -/
theorem test_cls : seen (fun t => (Display.get t.disp 0 0, Display.get t.disp 0 64))
    (step { start .chip8 0x00E0 [] with disp := litDisplay [(0, 0), (64, 0)] }) = some (false, false) := by decide +kernel
/-- T41.2. -/
theorem test_scd : seen (fun t => [Display.get t.disp 3 0, Display.get t.disp 0 0, Display.get t.disp 31 63,
      Display.get t.disp 0 64])
    (step { start .schip1_0 0x00C3 [] with disp := litDisplay [(0, 0), (64, 0), (63, 28)] }) =
    some [true, false, true, true] := by decide +kernel
/-- T41.5, T41.6. -/
theorem test_scr : seen (fun t => [Display.get t.disp 0 4, Display.get t.disp 1 63, Display.get t.disp 0 64])
    (step { start .chip8 0x00FB [] with disp := litDisplay [(0, 0), (59, 1), (60, 1), (64, 0)] }) =
    some [true, true, true] := by decide +kernel
theorem test_scl : seen (fun t => [Display.get t.disp 7 0, Display.get t.disp 1 55, Display.get t.disp 0 60])
    (step { start .chip8 0x00FC [] with disp := litDisplay [(4, 7), (59, 1), (64, 0)] }) =
    some [true, true, false] := by decide +kernel
/-- T41.10, T41.11. -/
theorem test_high_low : seen (fun t => (t.hires, Display.get t.disp 0 64))
    (step { start .chip8 0x00FF [] with disp := litDisplay [(64, 0)] }) = some (true, true) ∧
    seen (fun t => t.hires) (step { start .schip1_1 0x00FE [] with hires := true }) = some false := by decide +kernel

/-- T46.1, with the candidate key table. -/
theorem test_skp : seen (fun t => t.pc) (runOps [.key 12 true, .step] (start .chip8 0xE29E [(2, 0x1A)])) = some 0x0204 ∧
    seen (fun t => t.pc) (runOps [.key 10 true, .step] (start .chip8 0xE29E [(2, 0x1A)])) = some 0x0202 := by decide
theorem test_sknp : seen (fun t => t.pc) (runOps [.key 5 true, .step] (start .chip8 0xE2A1 [(2, 5)])) = some 0x0202 ∧
    seen (fun t => t.pc) (step (start .chip8 0xE2A1 [(2, 5)])) = some 0x0204 := by decide
/-- T46.3: steps 5 and 6. -/
theorem test_key_wait : seen (fun t => (t.pc, t.latch, t.reg 1))
    (runOps [.key 3 true, .step, .step] (start .chip8 0xF10A [])) = some (0x0200, some 3, 0) ∧
    seen (fun t => (t.pc, t.latch, t.reg 1))
    (runOps [.key 3 true, .step, .step, .key 3 false, .step] (start .chip8 0xF10A [])) = some (0x0202, none, 0x0C) := by
  decide
/-- T46.10. -/
theorem test_key_index : setKey 16 true State.reset = .refused .keyIndexOutOfRange := rfl

/-- T47.1 to T47.3. -/
theorem test_ldDtVx : seen (fun t => (t.dt, t.st)) (runOps [.step, .tick] (start .chip8 0xF415 [(4, 0x0A)])) =
    some (0x09, 0) := by decide
theorem test_ldStVx : seen (fun t => (t.st, t.soundOn)) (step (start .chip8 0xF418 [(4, 2)])) = some (2, true) := by decide
theorem test_ldVxDt : seen (fun t => t.reg 15) (step { start .chip8 0xFF07 [] with dt := 0x33 }) = some 0x33 := by decide
/-- T47.5. -/
theorem test_ticks : let t := { State.reset with dt := 0xFF, st := 2 }.ticks 3; (t.dt, t.st) = (252, 0) := by decide

/-- T70.2 on the glyph of A, T70.3. -/
theorem test_loadFont : Memory.read (loadFont (State.create defaultParams .chip8)).mem 0x32 = 0xF0 ∧
    Memory.read (loadFont (State.create defaultParams .chip8)).mem 0x50 = 0 := by decide +kernel
theorem test_loadRom : seen (fun t => (Memory.read t.mem 0x200, Memory.read t.mem 0x201, t.pc))
    (loadRom [0x12, 0x34] { State.reset with pc := 0x0300 }) = some (0x12, 0x34, 0x0300) := by decide
theorem test_withFetchWord : (State.reset.withFetchWord 16 0xD123).nextInstr = .drw 1 2 3 := by decide

/-! ### Witnesses: for each statement with hypotheses, a concrete state and operands that meet them together -/

/-- A step from this state answers a next state. -/
def runs (s : State) : Bool := (seen (fun _ => ()) (step s)).isSome

/-- Parameters with the choices that are not the defaults. -/
def otherParams : Params :=
  { defaultParams with
    schip11IsLegacy := true, bnnnXochipUsesVx := true, stackDepth := some 1, flagsXGt7 := .refuse,
    romTooLarge := .truncate, modeSwitchEffect := .clear, hifont := some (Vector.replicate 160 0x3C) }

theorem witness_DecodeOfEncodeIsIdentity :
    (Instr.drw 15 15 15).wf .chip8 = true ∧ (Instr.scd 15).wf .schip1_0 = true ∧ (Instr.loadFlags 15).wf .xochip = true ∧
    (Instr.unmatched 0xFFFF).wf .chip8 = true := by decide

theorem witness_DecodeFollowsTheOpcodeTable :
    (∃ r ∈ opcodeRows, r.selects .chip8 0xFF65 = true) ∧ ∀ r ∈ opcodeRows, r.selects .chip8 0xFF75 = false := by
  decide +kernel

theorem witness_VariantConditionsOfTheRows :
    (0x00CF : Word) &&& 0xFFF0 = 0x00C0 ∧ (0xFF30 : Word) &&& 0xF0FF = 0xF030 ∧ (0xF075 : Word) &&& 0xF0FF = 0xF075 ∧
    (0xFF85 : Word) &&& 0xF0FF = 0xF085 := by decide

theorem witness_SchipVariantsDifferOnlyInClipping :
    (State.create otherParams .schip1_0).cfg.schip11IsLegacy = true ∧
    ∀ x y n, Instr.jpV0 0xFFF ≠ .drw x y n := ⟨rfl, fun _ _ _ => nofun⟩

theorem witness_UnmatchedWordIsANoOperation : State.reset.nextInstr = .unmatched 0x0000 := by decide

theorem witness_SnapshotEndsEveryStep : runs State.reset = true ∧ ∃ t, exec .ret State.reset = .next t := ⟨by decide, _, rfl⟩

theorem witness_DisplayedExactlyAfterADraw :
    runs (start .chip8 0xD010 []) = true ∧ (start .chip8 0xD010 []).nextInstr = .drw 0 1 0 ∧
    seen (fun t => t.displayed) (step (start .chip8 0xD010 [])) = some true := by decide

theorem witness_StepNeverTouchesTimersKeysVariant : runs (start .chip8 0xF115 []) = true := by decide

theorem witness_EveryStepCompletes :
    NoStepRefusedBy defaultParams ∧
    step (({ State.create otherParams .xochip with stack := [0x0202] }).placeWord 0x2200) = .refused .stackFull ∧
    step ((State.create otherParams .xochip).placeWord 0xF875) = .refused .flagTransferTooLong :=
  ⟨⟨rfl, rfl⟩, rfl, rfl⟩

theorem witness_StepKeepsTheInvariant :
    let s := { State.reset with pc := 0x10FE, stack := [0x1001] }
    Inv s ∧ runs s = true := ⟨⟨rfl, by decide, fun a ha => List.mem_singleton.mp ha ▸ Nat.le_refl _, fun _ => nofun, by decide⟩, by decide⟩

theorem witness_ResetHasTheInvariant : KeymapIsPermutation otherParams := by decide

theorem witness_OperationsKeepTheInvariant :
    Inv State.reset ∧ (seen (fun _ => ()) (runOps [.create .chip8, .loadFont, .step, .tick, .key 15 true] State.reset)).isSome :=
  ⟨⟨rfl, by decide, fun _ => nofun, fun _ => nofun, by decide⟩, by decide +kernel⟩

/-- One step that writes the field, for each field of the statement. -/
theorem witness_FieldsChangeOnlyByTheirWriters :
    seen (fun t => t.pc) (step (start .chip8 0x1FFF [])) = some 0x0FFF ∧
    seen (fun t => t.displayed) (step (start .chip8 0xD000 [])) = some true ∧
    seen (fun t => t.draws) (step (start .chip8 0xC000 [])) = some 1 ∧
    seen (fun t => Display.get t.disp 0 0) (step { start .chip8 0x00E0 [] with disp := litDisplay [(0, 0)] }) =
      some false ∧
    seen (fun t => t.i) (step (start .chip8 0xA001 [])) = some 1 ∧
    seen (fun t => t.stack) (step (start .chip8 0x2300 [])) = some [0x0202] ∧
    seen (fun t => Memory.read t.mem 0) (step (start .chip8 0xF055 [(0, 7)])) = some 7 ∧
    seen (fun t => t.hires) (step (start .chip8 0x00FF [])) = some true ∧
    seen (fun t => t.latch) (step { start .chip8 0xF10A [] with keyPrev := Vector.replicate 16 true }) = some (some 0) ∧
    seen (fun t => t.flags[0]) (step (start .xochip 0xF075 [(0, 7)])) = some 7 ∧
    seen (fun t => t.dt) (step (start .chip8 0xF015 [(0, 7)])) = some 7 ∧
    seen (fun t => t.st) (step (start .chip8 0xF018 [(0, 7)])) = some 7 ∧
    seen (fun t => t.reg 0) (step (start .chip8 0x6007 [])) = some 7 := by decide +kernel

/-- T44.16. -/
theorem witness_StoredBytesAreFetchedNext :
    let s := { start .chip8 0xF155 [(0, 0x6A), (1, 0x55)] with i := 0x0202 }
    s.nextInstr = .storeRegs 1 ∧ seen (fun t => (t.pc, t.fetchWord)) (step s) = some (0x0202, 0x6A55) := by decide +kernel

/-- T42.17; and a jump to itself at the top of memory. -/
theorem witness_JumpToItselfParks :
    (start .chip8 0x1200 []).nextInstr = .jp 0x200 ∧ (start .chip8 0x1200 []).pc.toNat = (0x200 : Addr).toNat ∧
    ({ State.reset with pc := 0x0FFF, mem := [(0x000, 0xFF), (0xFFF, 0x1F)] }).nextInstr = .jp 0xFFF := by decide +kernel

theorem witness_MemoryIsDeterminedByItsBytes : Memory.wf [(0x000, 0x01), (0xFFF, 0xFF)] = true := by decide

theorem witness_decodings_of_the_alu_statements :
    (0x6FFF : Word) &&& 0xF000 = 0x6000 ∧ (0x7F00 : Word) &&& 0xF000 = 0x7000 ∧
    ([0x0, 0x1, 0x2, 0x3, 0x4, 0x5, 0x6, 0x7, 0xE] : List Word).all (fun n => (0x8FF0 + n) &&& 0xF00F == 0x8000 + n) := by
  decide

theorem witness_variants_of_the_alu_statements :
    (State.create defaultParams .chip8).variant = .chip8 ∧ (State.create defaultParams .xochip).variant ≠ .chip8 ∧
    (14 : Reg) ≠ 15 := by decide

theorem witness_ReturnAndJump :
    (0x1FFF : Word) &&& 0xF000 = 0x1000 ∧ State.reset.stack = [] ∧
    ({ State.reset with stack := [0x0206, 0x0310] }).stack = 0x0206 :: [0x0310] := ⟨by decide, rfl, rfl⟩

/-- An unbounded stack; a bounded one with exactly one place left, and the same one full. -/
theorem witness_CallPushesTheReturnAddress :
    (∀ depth, State.reset.cfg.stackDepth = some depth → State.reset.stack.length < depth) ∧
    (∀ depth, (State.create otherParams .chip8).cfg.stackDepth = some depth →
      (State.create otherParams .chip8).stack.length < depth) ∧
    (State.create otherParams .chip8).cfg.stackDepth = some 1 ∧
    1 ≤ ({ State.create otherParams .chip8 with stack := [0x0202] }).stack.length :=
  ⟨fun _ => nofun, fun _ h => Option.some.inj h ▸ Nat.zero_lt_one, rfl, Nat.le_refl 1⟩

theorem witness_decodings_of_the_index_statements :
    (0xAFFF : Word) &&& 0xF000 = 0xA000 ∧
    ([0x07, 0x15, 0x18, 0x29, 0x30, 0x33, 0x55, 0x65] : List Word).all (fun n => (0xFF00 + n) &&& 0xF0FF == 0xF000 + n) := by
  decide

/-- The first and the last register of a block, and the first beyond it. -/
theorem witness_RegisterBlockIsStored_and_RegisterBlockIsLoaded :
    (0 : Reg) ≤ 2 ∧ (2 : Reg) ≤ 2 ∧ (2 : Reg) < 3 ∧ (15 : Reg) ≤ 15 := by decide

theorem witness_StoreThenLoadRestoresRegisters :
    let s := { start .chip8 0 [(0, 0x11)] with i := 0x0400 }
    ∃ t, exec (.storeRegs 2) s = .next t ∧
      ({ t with i := 0x0400 } : State).mem = t.mem ∧ ({ t with i := 0x0400 } : State).i = s.i := ⟨_, rfl, rfl, rfl⟩

/-- X = 7 and X = 8, with each choice of FLAGS_X_GT_7. -/
theorem witness_FlagFileTransfers :
    (State.create otherParams .schip1_1).variant ≠ .xochip ∧
    ((State.create otherParams .xochip).variant = .xochip ∧ (7 : Reg).val ≤ 7) ∧
    (State.reset.variant = .xochip ∧ State.reset.cfg.flagsXGt7 = .clamp) ∧
    (7 < (8 : Reg).val ∧ (State.create otherParams .xochip).cfg.flagsXGt7 = .refuse) := by decide

/-- T45.7: a covered cell, so the clauses of the statement are not empty; and a cell that is not covered. -/
theorem witness_DrawTogglesTheCoveredCells :
    let s := { start .chip8 0 [(0, 70), (1, 40)] with i := 0x0300, mem := [(0x300, 0x80)] }
    Covered s 0 1 1 8 6 ∧ ¬ Covered s 0 1 0 8 6 := by
  refine ⟨⟨0, 0, ?_, ?_⟩, ?_⟩
  · unfold SpritePixel; decide
  · unfold LandsOn; decide
  · rintro ⟨r, c, hp, -⟩
    unfold SpritePixel at hp
    rw [if_neg (by decide)] at hp
    exact absurd hp.1 (Nat.not_lt_zero r)

/-- The state between the two draws may be the first draw's own result, where neither coordinate register is `VF`. -/
theorem witness_DrawingTwiceRestoresTheDisplay :
    ∃ t, exec (.drw 0 1 1) State.reset = .next t ∧ t.hires = State.reset.hires ∧ t.variant = State.reset.variant ∧
      t.cfg = State.reset.cfg ∧ t.mem = State.reset.mem ∧ t.i = State.reset.i ∧ t.reg 0 = State.reset.reg 0 ∧
      t.reg 1 = State.reset.reg 1 := ⟨_, rfl, rfl, rfl, rfl, rfl, rfl, by decide +kernel, by decide +kernel⟩

theorem witness_ScrollDownMovesTheWindow :
    31 < State.reset.height ∧ 63 < State.reset.width ∧ ¬ (32 < State.reset.height ∧ 63 < State.reset.width) ∧
    State.reset.variant ≠ .chip8 := by decide

/-- Both modes and the three choices of MODE_SWITCH_EFFECT. -/
theorem witness_ModeSwitches :
    State.reset.hires = false ∧ State.reset.hires ≠ true ∧ State.reset.cfg.modeSwitchEffect = .keep ∧
    (State.create otherParams .xochip).cfg.modeSwitchEffect = .clear ∧
    ({ defaultParams with modeSwitchEffect := .havoc }).modeSwitchEffect = .havoc := by decide

/-- T46.1: `V[2] = 0x1A` names the key at index 12; and 0 the one at 13. -/
theorem witness_KeySkipsTestTheNamedKey :
    KeymapIsPermutation defaultParams ∧
    (defaultParams.keymap[(12 : KeyIndex).val]).toNat = ((start .chip8 0 [(2, 0x1A)]).reg 2).toNat % 16 ∧
    (defaultParams.keymap[(13 : KeyIndex).val]).toNat = ((start .chip8 0 [(2, 0x00)]).reg 2).toNat % 16 := by decide

/-- A waiting state before the latch, one with the latched key still down, and the release edge. -/
def waiting (latch : Option KeyIndex) (prev now : Bool) : State :=
  { start .chip8 0xF10A [] with
    latch := latch, keyPrev := Vector.replicate 16 prev, key := Vector.replicate 16 now }

theorem witness_KeyWaitIsATwoStateMachine :
    (waiting none true true).latch = none ∧ (waiting (some 15) true false).latch = some 15 ∧
    ((waiting (some 15) true false).keyPrev[15] = true ∧ (waiting (some 15) true false).key[15] = false) ∧
    ¬ ((waiting (some 15) true true).keyPrev[15] = true ∧ (waiting (some 15) true true).key[15] = false) := by
  decide +kernel

theorem witness_WaitingStepKeepsTheState :
    (waiting none false true).nextInstr = .ldVxK 1 ∧ (waiting (some 3) true true).nextInstr = .ldVxK 1 ∧
    ({ waiting none false true with pc := 0x1000, mem := [(0x200, 0xF1), (0x201, 0x0A)] }).nextInstr = .ldVxK 1 ∧
    (∀ k : KeyIndex, (waiting none false true).latch = some k → ¬ ((waiting none false true).keyPrev[k.val] = true ∧
      (waiting none false true).key[k.val] = false)) ∧
    (∀ k : KeyIndex, (waiting (some 3) true true).latch = some k → ¬ ((waiting (some 3) true true).keyPrev[k.val] = true ∧
      (waiting (some 3) true true).key[k.val] = false)) := by decide +kernel

theorem witness_PressAndReleaseEndTheWait :
    (start .chip8 0xF10A []).nextInstr = .ldVxK 1 ∧ (start .chip8 0xF10A []).latch = none ∧
    (∀ j : KeyIndex, (start .chip8 0xF10A []).key[j.val] = false) ∧
    (∀ j : KeyIndex, (start .chip8 0xF10A []).keyPrev[j.val] = false) := by decide +kernel

theorem witness_KeyWritesOneLiveKey : 15 < 16 ∧ 16 ≤ 16 ∧ (14 : KeyIndex).val ≠ 15 := by decide

/-- Lengths 0, 1, 3584 and 3585; both choices of ROM_TOO_LARGE. -/
theorem witness_LoadRomCopiesTheProgram :
    ([] : List Byte).length ≤ 3584 ∧ 0 < [(0x12 : Byte)].length ∧
    (List.replicate 3584 (0xAB : Byte)).length ≤ 3584 ∧ 3584 < (List.replicate 3585 (0xAB : Byte)).length ∧
    State.reset.cfg.romTooLarge = .reject ∧ otherParams.romTooLarge = .truncate := by
  simp only [List.length_replicate]
  decide

/-- Bases at which the tables overlap, and wrap at the end of memory, so that glyph byte 0 of LOWFONT is not covered and
byte 1 is. -/
def overlappingFonts : State :=
  State.create { otherParams with lowfontBase := 0xFFF, hifontBase := 0x000 } .xochip

/-- On the overlapping bases a byte of each table, the later write where they overlap, and a byte of neither; the default
bases on both kinds of variant, with given hi-res glyphs on one. -/
theorem witness_LoadFontWritesTheGlyphs :
    ((∀ j : Fin 160, (overlappingFonts.cfg.lowfontBase.toNat + 0) % 4096 ≠
      (overlappingFonts.cfg.hifontBase.toNat + j.val) % 4096) ∧
    (∀ k : Fin 80, 0x0A0 % 4096 ≠ (overlappingFonts.cfg.lowfontBase.toNat + k.val) % 4096) ∧
    (∀ j : Fin 160, 0x0A0 % 4096 ≠ (overlappingFonts.cfg.hifontBase.toNat + j.val) % 4096)) ∧
    (Memory.read (loadFont overlappingFonts).mem 0xFFF = 0xF0 ∧ Memory.read (loadFont overlappingFonts).mem 0x000 = 0x3C ∧
      Memory.read (loadFont overlappingFonts).mem 0x0A0 = 0) ∧
    State.reset.cfg.lowfontBase = 0x000 ∧ State.reset.cfg.hifontBase = 0x050 ∧
    (State.create otherParams .xochip).cfg.lowfontBase = 0x000 ∧
    (State.create otherParams .xochip).cfg.hifontBase = 0x050 ∧ (State.create otherParams .xochip).variant ≠ .chip8 ∧
    (State.create otherParams .xochip).cfg.hifont = some (Vector.replicate 160 0x3C) ∧
    (State.create defaultParams .chip8).variant = .chip8 :=
  ⟨by decide +kernel, by decide +kernel, rfl, rfl, rfl, rfl, by decide, rfl, rfl⟩

theorem witness_DisplayOutputIsTheWindowRowByRow :
    31 < State.reset.height ∧ 63 < State.reset.width ∧ 63 < ({ State.reset with hires := true }).height ∧
    127 < ({ State.reset with hires := true }).width := by decide

end Sys2Proof.Tests
end

section
/-! SUPPORT. The invariant: what one instruction can do to each field it speaks of, then the step, then every operation
of the environment, then every sequence of operations. -/

namespace Sys2Proof.Machine

variable {i : Instr} {s t : State}

/-! ### The fields of the invariant after one instruction -/

/-- No instruction writes the parameters. -/
theorem Effect.cfg_eq (h : Effect i s t) : t.cfg = s.cfg := by cases h <;> subst_vars <;> rfl

/-- An instruction leaves memory or writes one block of bytes. -/
theorem Effect.mem_cases (h : Effect i s t) :
    t.mem = s.mem ∨ ∃ a bytes, t.mem = Memory.writeBlock s.mem a bytes := by
  cases h with
  | digits _ _ _ he => exact .inr ⟨_, _, congrArg State.mem he⟩
  | storeRegs _ _ he => exact .inr ⟨_, _, congrArg State.mem he⟩
  | _ => subst_vars; exact .inl rfl

/-- An instruction leaves the call stack, pushes the advanced `pc` where there is room, or pops one entry. -/
theorem Effect.stack_cases (h : Effect i s t) :
    t.stack = s.stack ∨ (s.stackHasRoom = true ∧ t.stack = s.pc :: s.stack) ∨ ∃ a, s.stack = a :: t.stack := by
  cases h with
  | call _ _ hroom he => exact .inr (.inl ⟨hroom, congrArg State.stack he⟩)
  | ret _ a _ hs he => exact .inr (.inr ⟨a, by rw [hs, he]⟩)
  | _ => subst_vars; exact .inl rfl

/-- Where `pc` can go: on, over one instruction, back to repeat this one, to 0x0200, to a stack entry, or to an immediate
address with or without an offset of one byte (R160 to R176, R258). -/
theorem Effect.pc_cases (h : Effect i s t) :
    t.pc = s.pc ∨ t.pc = s.pc + 2 ∨ t.pc = s.pc - 2 ∨ t.pc = 0x0200 ∨ t.pc ∈ s.stack ∨
    (∃ nnn : Addr, t.pc = nnn.setWidth 16) ∨ ∃ (nnn : Addr) (b : Byte), t.pc = nnn.setWidth 16 + b.setWidth 16 := by
  cases h with
  | skip _ he => exact .inr (.inl (congrArg State.pc he))
  | keyWait _ _ he => exact .inr (.inr (.inl (congrArg State.pc he)))
  | retEmpty _ _ he => exact .inr (.inr (.inr (.inl (congrArg State.pc he))))
  | ret _ a _ hs he => exact .inr (.inr (.inr (.inr (.inl (by simp [hs, he])))))
  | jump nnn _ he => exact .inr (.inr (.inr (.inr (.inr (.inl ⟨nnn, congrArg State.pc he⟩)))))
  | call nnn _ _ he => exact .inr (.inr (.inr (.inr (.inr (.inl ⟨nnn, congrArg State.pc he⟩)))))
  | jumpOffset nnn _ he => exact .inr (.inr (.inr (.inr (.inr (.inr ⟨nnn, _, congrArg State.pc he⟩)))))
  | _ => subst_vars; exact .inl rfl

/-! ### The step keeps the invariant -/

/-- An advanced `pc` lies between 2 and 0x1001, since the step fetched from memory (R24, R121, R123). -/
theorem beginStep_pc_bounds (s : State) : 2 ≤ s.beginStep.pc.toNat ∧ s.beginStep.pc.toNat ≤ 0x1001 := by
  have hlt := boundPc_lt s.pc
  rw [State.beginStep_pc, BitVec.toNat_add_of_lt (by simp; omega)]
  simp; omega

/-- A stack that does not grow still fits. -/
theorem StackFits.of_length_le (hs : StackFits s) (hcfg : t.cfg = s.cfg) (hlen : t.stack.length ≤ s.stack.length) :
    StackFits t :=
  fun depth hdepth => hlen.trans (hs depth (hcfg ▸ hdepth))

/-- A push where there is room still fits (R26). -/
theorem stackFits_push (hroom : s.stackHasRoom = true) (hcfg : t.cfg = s.cfg)
    (hstack : t.stack = s.pc :: s.stack) : StackFits t := by
  intro depth hdepth
  rw [hcfg] at hdepth
  simpa [State.stackHasRoom, hdepth, hstack] using hroom

/-- An instruction keeps the invariant if `pc` is an advanced one: 2 or more, so that repeating the instruction does not
wrap, and at most 0x1001, which is the bound of a stack entry. -/
theorem Effect.keeps_inv (h : Effect i s t) (hs : Inv s) (hlo : 2 ≤ s.pc.toNat) (hhi : s.pc.toNat ≤ 0x1001) : Inv t where
  memWf := by
    rcases h.mem_cases with hm | ⟨a, bytes, hm⟩
    · exact hm ▸ hs.memWf
    · exact hm ▸ Memory.wf_writeBlock _ a bytes hs.memWf
  pcBound := by
    rcases h.pc_cases with hp | hp | hp | hp | hp | ⟨nnn, hp⟩ | ⟨nnn, b, hp⟩
    · rw [hp]; omega
    · rw [hp]; bv_omega
    · rw [hp]; bv_omega
    · rw [hp]; decide
    · exact (hs.stackBound _ hp).trans (by decide)
    · rw [hp]; bv_omega
    · rw [hp]; bv_omega
  stackBound := by
    rcases h.stack_cases with hst | ⟨_, hst⟩ | ⟨a, hst⟩
    · exact hst ▸ hs.stackBound
    · exact hst ▸ List.forall_mem_cons.mpr ⟨hhi, hs.stackBound⟩
    · exact (List.forall_mem_cons.mp (hst ▸ hs.stackBound)).2
  stackFits := by
    rcases h.stack_cases with hst | ⟨hroom, hst⟩ | ⟨a, hst⟩
    · exact hs.stackFits.of_length_le h.cfg_eq (by rw [hst])
    · exact stackFits_push hroom h.cfg_eq hst
    · exact hs.stackFits.of_length_le h.cfg_eq (by simp [hst])
  keymapLegal := h.cfg_eq ▸ hs.keymapLegal

theorem Inv.beginStep (hs : Inv s) : Inv s.beginStep :=
  { hs with pcBound := (beginStep_pc_bounds s).2.trans (by decide) }

theorem Inv.endStep (hs : Inv s) : Inv s.endStep := { hs with }

/-- The invariant is kept by every step (R24, R26, R252). -/
theorem step_keeps_inv (hs : Inv s) (h : step s = .next t) : Inv t := by
  obtain ⟨u, _, heffect, rfl⟩ := step_next h
  obtain ⟨hlo, hhi⟩ := beginStep_pc_bounds s
  exact (heffect.keeps_inv hs.beginStep hlo hhi).endStep

/-! ### The other operations keep the invariant -/

/-- A created core has the invariant if its key table is legal (R39, R252). -/
theorem create_has_inv {p : Params} (hp : KeymapIsPermutation p) (v : Variant) : Inv (State.create p v) where
  memWf := rfl
  pcBound := by show Reset.pc.toNat ≤ _; decide
  stackBound := by intro a ha; cases ha
  stackFits := by intro depth _; exact Nat.zero_le depth
  keymapLegal := hp

theorem recreate_keeps_inv (hs : Inv s) (v : Variant) : Inv (recreate v s) :=
  { create_has_inv hs.keymapLegal v with }

theorem loadFont_keeps_inv (hs : Inv s) : Inv (loadFont s) := by
  refine { hs with memWf := ?_ }
  rw [loadFont_mem]
  split
  · exact Memory.wf_writeBlock _ _ _ (Memory.wf_writeBlock _ _ _ hs.memWf)
  · exact Memory.wf_writeBlock _ _ _ hs.memWf

theorem placeRom_keeps_inv (hs : Inv s) (bytes : List Byte) : Inv (s.placeRom bytes) :=
  { hs with memWf := Memory.wf_writeBlock _ _ _ hs.memWf }

/-- LOAD_ROM that is not refused places the program or its first 3584 bytes (R324, R325). -/
theorem loadRom_cases {bytes : List Byte} (h : loadRom bytes s = .next t) :
    t = s.placeRom bytes ∨ t = s.placeRom (bytes.take romMax) := by
  unfold loadRom at h
  split at h
  · exact .inl (Host.Outcome.next.inj h).symm
  · split at h
    · cases h
    · exact .inr (Host.Outcome.next.inj h).symm

/-- KEY that is not refused writes one live key (R250, R251). -/
theorem setKey_cases {index : Nat} {pressed : Bool} (h : setKey index pressed s = .next t) :
    ∃ hi : index < 16, t = { s with key := s.key.set index pressed } := by
  unfold setKey at h
  split at h
  · exact ⟨‹_›, (Host.Outcome.next.inj h).symm⟩
  · cases h

/-- The invariant is kept by every operation that is not refused. -/
theorem perform_keeps_inv {op : Op} (hs : Inv s) (h : op.perform s = .next t) : Inv t := by
  cases op with
  | create v => exact Host.Outcome.next.inj h ▸ recreate_keeps_inv hs v
  | loadFont => exact Host.Outcome.next.inj h ▸ loadFont_keeps_inv hs
  | loadRom bytes =>
    rcases loadRom_cases h with rfl | rfl
    · exact placeRom_keeps_inv hs _
    · exact placeRom_keeps_inv hs _
  | step => exact step_keeps_inv hs h
  | tick => exact Host.Outcome.next.inj h ▸ { hs with }
  | key index pressed =>
    obtain ⟨_, rfl⟩ := setKey_cases h
    exact { hs with }

/-! ### Sequences of operations (R8, R9) -/

/-- A sequence that completes: its first operation completes, or is refused and changes nothing (R17). -/
theorem runOps_cons_cases {op : Op} {rest : List Op} (h : runOps (op :: rest) s = .next t) :
    (∃ u, op.perform s = .next u ∧ runOps rest u = .next t) ∨ runOps rest s = .next t := by
  rw [runOps] at h
  split at h
  · exact .inl ⟨_, ‹_›, h⟩
  · cases h
  · split at h
    · exact .inr h
    · cases h

end Sys2Proof.Machine
end

section
/-! PROOFS. The two statements of the scope: sequences of operations (R8, R9) and the memory primitives (R16). -/

namespace Sys2Proof.Machine

/-- Settles O17, by induction on the list of operations: an operation that completes keeps the invariant, and one that is
refused changes nothing. -/
theorem operationsKeepTheInvariant : Obligations.OperationsKeepTheInvariant := by
  unfold Obligations.OperationsKeepTheInvariant
  intro ops
  induction ops with
  | nil =>
    intro s t hs h
    exact Host.Outcome.next.inj h ▸ hs
  | cons op rest ih =>
    intro s t hs h
    rcases runOps_cons_cases h with ⟨u, hu, hrest⟩ | hrest
    · exact ih u t (perform_keeps_inv hs hu) hrest
    · exact ih s t hs hrest

/-- The two bytes of a big-endian read, each at its reduced address (R16, R63). -/
theorem Memory.read2_eq (m : Memory) (a : Nat) :
    Memory.read2 m a = Memory.read m (a % 4096) ++ Memory.read m ((a + 1) % 4096) := by
  rw [Memory.read_mod, Memory.read_mod]
  rfl

/-- Settles O22, from the laws of reading, of reading two bytes, and of reading after a write. -/
theorem memoryPrimitivesReduceAddresses : Obligations.MemoryPrimitivesReduceAddresses := by
  unfold Obligations.MemoryPrimitivesReduceAddresses
  intro m a b c
  exact ⟨(Memory.read_mod m a).symm, Memory.read2_eq m a, Memory.read_write m a b c⟩

end Sys2Proof.Machine
end

section
/-! SUPPORT. The writers of each field (R40): an instruction that leaves another value in a field is one that writes it. -/

namespace Sys2Proof.Machine

variable {i : Instr} {s t : State}

theorem Effect.pc_writers (h : Effect i s t) (hne : t.pc ≠ s.pc) :
    i.mnemonic ∈ ["RET", "JP_NNN", "CALL_NNN", "SE_VX__NN", "SNE_VX__NN", "SE_VX__VY", "SNE_VX__VY", "JP_V0__NNN",
      "SKP_VX", "SKNP_VX", "LD_VX__K"] := by
  cases h with
  | skip hi =>
    simp only [List.mem_cons, List.not_mem_nil, or_false] at hi ⊢
    tauto
  | jump _ hi => simp [hi, Instr.mnemonic]
  | jumpOffset _ hi => simp [hi, Instr.mnemonic]
  | call _ hi => simp [hi, Instr.mnemonic]
  | retEmpty hi => simp [hi, Instr.mnemonic]
  | ret hi => simp [hi, Instr.mnemonic]
  | keyWait hi => simp [hi]
  | _ => subst_vars; exact absurd rfl hne

/-- `FX55` and `FX65` leave `I` where the variant is not `CHIP8`. -/
theorem indexAfterBlock_eq_of_not_chip8 (hv : s.variant ≠ .chip8) (x : Reg) : s.indexAfterBlock x = s.i := by
  rw [State.indexAfterBlock, if_neg (by rwa [isChip8_iff])]

theorem Effect.i_writers (h : Effect i s t) (hne : t.i ≠ s.i) :
    i.mnemonic ∈ ["LD_I__NNN", "ADD_I__VX", "LD_F__VX", "LD_HF__VX"] ∨
    (s.variant = .chip8 ∧ i.mnemonic ∈ ["LD__I___VX", "LD_VX___I"]) := by
  cases h with
  | index hi => exact .inl hi
  | storeRegs x hi he =>
    subst he
    exact .inr ⟨not_imp_comm.mp (indexAfterBlock_eq_of_not_chip8 · x) hne, by simp [hi, Instr.mnemonic]⟩
  | loadRegs x hi _ he =>
    subst he
    exact .inr ⟨not_imp_comm.mp (indexAfterBlock_eq_of_not_chip8 · x) hne, by simp [hi, Instr.mnemonic]⟩
  | _ => subst_vars; exact absurd rfl hne

theorem Effect.stack_writers (h : Effect i s t) (hne : t.stack ≠ s.stack) : i.mnemonic ∈ ["CALL_NNN", "RET"] := by
  cases h with
  | call _ hi => simp [hi, Instr.mnemonic]
  | ret hi => simp [hi, Instr.mnemonic]
  | _ => subst_vars; exact absurd rfl hne

theorem Effect.mem_writers (h : Effect i s t) (hne : t.mem ≠ s.mem) : i.mnemonic ∈ ["LD_B__VX", "LD__I___VX"] := by
  cases h with
  | digits _ hi => simp [hi, Instr.mnemonic]
  | storeRegs _ hi => simp [hi, Instr.mnemonic]
  | _ => subst_vars; exact absurd rfl hne

theorem Effect.disp_writers (h : Effect i s t) (hne : t.disp ≠ s.disp) :
    i.mnemonic ∈ ["CLS", "SCD_N", "SCR", "SCL", "DRW_VX__VY__N"] ∨
    (s.cfg.modeSwitchEffect ≠ .keep ∧ i.mnemonic ∈ ["LOW", "HIGH"]) := by
  cases h with
  | display hi => exact .inl (List.mem_append_left ["DRW_VX__VY__N"] hi)
  | draw _ _ _ hi => exact .inl (by simp [hi, Instr.mnemonic])
  | modeAndDisplay hi hm => exact .inr ⟨by simp [hm], hi⟩
  | modeHavoc hi hm => exact .inr ⟨by simp [hm], hi⟩
  | _ => subst_vars; exact absurd rfl hne

theorem Effect.hires_writers (h : Effect i s t) (hne : t.hires ≠ s.hires) : i.mnemonic ∈ ["LOW", "HIGH"] := by
  cases h with
  | mode hi => exact hi
  | modeAndDisplay hi => exact hi
  | modeHavoc hi => exact hi
  | _ => subst_vars; exact absurd rfl hne

theorem Effect.latch_writers (h : Effect i s t) (hne : t.latch ≠ s.latch) : i.mnemonic = "LD_VX__K" := by
  cases h with
  | keyWait hi => exact hi
  | keyTaken hi => exact hi
  | _ => subst_vars; exact absurd rfl hne

theorem Effect.flags_writers (h : Effect i s t) (hne : t.flags ≠ s.flags) :
    s.variant = .xochip ∧ i.mnemonic = "LD_R__VX" := by
  cases h with
  | flags hi hv => exact ⟨hv, hi⟩
  | _ => subst_vars; exact absurd rfl hne

theorem Effect.dt_writers (h : Effect i s t) (hne : t.dt ≠ s.dt) : i.mnemonic = "LD_DT__VX" := by
  cases h with
  | delayTimer _ hi => rw [hi]; rfl
  | _ => subst_vars; exact absurd rfl hne

theorem Effect.st_writers (h : Effect i s t) (hne : t.st ≠ s.st) : i.mnemonic = "LD_ST__VX" := by
  cases h with
  | soundTimer _ hi => rw [hi]; rfl
  | _ => subst_vars; exact absurd rfl hne

theorem Effect.v_writers (h : Effect i s t) (hne : t.v ≠ s.v) :
    i.mnemonic ∈ ["LD_VX__NN", "ADD_VX__NN", "LD_VX__VY", "OR_VX__VY", "AND_VX__VY", "XOR_VX__VY", "ADD_VX__VY",
      "SUB_VX__VY", "SHR_VX__VY", "SUBN_VX__VY", "SHL_VX__VY", "RND_VX__NN", "DRW_VX__VY__N", "LD_VX__DT", "LD_VX__K",
      "LD_VX___I", "LD_VX__R"] := by
  cases h with
  | regs hi =>
    simp only [List.mem_cons, List.not_mem_nil, or_false] at hi ⊢
    tauto
  | random hi => simp [hi]
  | draw _ _ _ hi => simp [hi, Instr.mnemonic]
  | loadRegs _ hi => simp [hi, Instr.mnemonic]
  | keyTaken hi => simp [hi]
  | _ => subst_vars; exact absurd rfl hne

theorem Effect.displayed_writers (h : Effect i s t) (hne : t.displayed ≠ s.displayed) :
    ∃ x y n, i = .drw x y n := by
  cases h with
  | draw x y n hi => exact ⟨x, y, n, hi⟩
  | _ => subst_vars; exact absurd rfl hne

theorem Effect.draws_writers (h : Effect i s t) (hne : t.draws ≠ s.draws) :
    i.mnemonic = "RND_VX__NN" ∨ (s.cfg.modeSwitchEffect = .havoc ∧ i.mnemonic ∈ ["LOW", "HIGH"]) := by
  cases h with
  | random hi => exact .inl hi
  | modeHavoc hi hm => exact .inr ⟨hm, hi⟩
  | _ => subst_vars; exact absurd rfl hne

/-- No instruction writes the live keypad (R32). -/
theorem Effect.key_eq (h : Effect i s t) : t.key = s.key := by cases h <;> subst_vars <;> rfl

/-- No instruction writes the variant (R36). -/
theorem Effect.variant_eq (h : Effect i s t) : t.variant = s.variant := by cases h <;> subst_vars <;> rfl

/-- Every draw notes that it was one (R128). -/
theorem exec_drw_displayed {x y : Reg} {n : Nibble} (h : exec (.drw x y n) s = .next t) : t.displayed = true :=
  Host.Outcome.next.inj h ▸ rfl

/-- A step leaves `displayed` true exactly if it ran `DXYN`: phase 1 has cleared it (R34, R128). -/
theorem step_displayed_iff (h : step s = .next t) : t.displayed = true ↔ ∃ x y n, s.nextInstr = .drw x y n := by
  obtain ⟨u, hexec, heffect, rfl⟩ := step_next h
  constructor
  · intro hd
    exact heffect.displayed_writers (Bool.eq_false_iff.mp · hd)
  · rintro ⟨x, y, n, hi⟩
    rw [hi] at hexec
    exact exec_drw_displayed (t := u) hexec

end Sys2Proof.Machine
end

section
/-! SUPPORT. The sound timer is only ever written (R27, R272): setting it beforehand and setting it afterwards are the
same for every instruction but `FX18`. -/

namespace Sys2Proof.Machine

variable {i : Instr}

/-- `s` with another value in the sound timer. -/
def State.withSt (s : State) (b : Byte) : State := { s with st := b }

/-- A condition may be decided before or after the sound timer is set. -/
theorem State.withSt_ite (c : Prop) [Decidable c] (s t : State) (b : Byte) :
    (if c then s else t).withSt b = if c then s.withSt b else t.withSt b :=
  apply_ite (State.withSt · b) c s t

/-- A change made after a conditional outcome is made in each branch. -/
theorem Outcome.andThen_ite (c : Prop) [Decidable c] (o p : Outcome) (f : State → State) :
    Outcome.andThen (if c then o else p) f = if c then Outcome.andThen o f else Outcome.andThen p f :=
  apply_ite (Outcome.andThen · f) c o p

theorem State.setLogicResult_withSt (s : State) (b : Byte) (x : Reg) (r : Byte) :
    (s.withSt b).setLogicResult x r = (s.setLogicResult x r).withSt b := by
  simp only [State.setLogicResult, State.withSt_ite]
  rfl

theorem State.switchMode_withSt (s : State) (b : Byte) (hires : Bool) :
    (s.withSt b).switchMode hires = (s.switchMode hires).withSt b := by
  have hcfg : (s.withSt b).cfg = s.cfg := rfl
  simp only [State.switchMode, State.withSt_ite, hcfg]
  cases s.cfg.modeSwitchEffect <;> rfl

/-- Where a meaning branches, it branches on a field other than `ST`; each branch then writes other fields than `ST`. -/
theorem exec_withSt (hi : ¬ ∃ x, i = .ldStVx x) (s : State) (b : Byte) :
    exec i (s.withSt b) = Outcome.andThen (exec i s) (·.withSt b) := by
  cases i with
  | ldStVx x => exact absurd ⟨x, rfl⟩ hi
  | ret =>
    have hstack : (s.withSt b).stack = s.stack := rfl
    simp only [exec, execRet, hstack]
    cases s.stack <;> rfl
  | call nnn =>
    simp only [exec, execCall, Outcome.andThen_ite]
    rfl
  | scd n =>
    simp only [exec, execScd, Outcome.andThen_ite]
    rfl
  | ldHf x =>
    simp only [exec, execLdHf, Outcome.andThen_ite]
    rfl
  | low => exact congrArg _ (s.switchMode_withSt b false)
  | high => exact congrArg _ (s.switchMode_withSt b true)
  | orReg x y => exact congrArg _ (s.setLogicResult_withSt b x _)
  | andReg x y => exact congrArg _ (s.setLogicResult_withSt b x _)
  | xorReg x y => exact congrArg _ (s.setLogicResult_withSt b x _)
  | ldVxK x =>
    have hlatch : (s.withSt b).latch = s.latch := rfl
    simp only [exec, execLdVxK, hlatch]
    cases s.latch with
    | none => rfl
    | some k =>
      simp only [Outcome.andThen_ite]
      rfl
  | storeFlags x =>
    simp only [exec, execStoreFlags, Outcome.andThen_ite]
    rfl
  | loadFlags x =>
    simp only [exec, execLoadFlags, Outcome.andThen_ite]
    rfl
  | _ => rfl

end Sys2Proof.Machine
end

section
/-! PROOFS. The statements of the family 10_state: the invariant, the writers of each field, the sound timer, the
canonical form of memory, and the state after CREATE. -/

namespace Sys2Proof.Machine

/-- Settles O15: the advanced `pc` keeps the bounds that an instruction needs to keep the invariant. -/
theorem stepKeepsTheInvariant : Obligations.StepKeepsTheInvariant := by
  unfold Obligations.StepKeepsTheInvariant
  exact fun s t hs h => step_keeps_inv hs h

/-- Settles O12, from the one effect that writes `displayed`. -/
theorem displayedExactlyAfterADraw : Obligations.DisplayedExactlyAfterADraw := by
  unfold Obligations.DisplayedExactlyAfterADraw
  exact fun s t h => step_displayed_iff h

/-- Settles O18: each clause is the lemma on the writers of its field, at the state after phases 1, 2 and 4. -/
theorem fieldsChangeOnlyByTheirWriters : Obligations.FieldsChangeOnlyByTheirWriters := by
  unfold Obligations.FieldsChangeOnlyByTheirWriters
  intro s t h
  have hdisplayed : t.displayed = true → s.nextInstr.mnemonic = "DRW_VX__VY__N" := by
    intro hd
    obtain ⟨x, y, n, hi⟩ := (step_displayed_iff h).mp hd
    rw [hi]; rfl
  obtain ⟨u, -, heffect, rfl⟩ := step_next h
  rw [← boundPc_eq]
  exact ⟨heffect.pc_writers, heffect.i_writers, heffect.stack_writers, heffect.mem_writers, heffect.disp_writers,
    heffect.hires_writers, heffect.latch_writers, heffect.flags_writers, heffect.dt_writers, heffect.st_writers,
    heffect.v_writers, hdisplayed, heffect.key_eq, heffect.key_eq, heffect.variant_eq, heffect.draws_writers,
    heffect.cfg_eq⟩

/-- Settles O19: `FX18` writes `ST` from a register, and every other instruction commutes with setting it. -/
theorem noInstructionReadsTheSoundTimer : Obligations.NoInstructionReadsTheSoundTimer := by
  unfold Obligations.NoInstructionReadsTheSoundTimer
  intro i s b
  by_cases hi : ∃ x, i = .ldStVx x
  · simp only [if_pos hi]
    obtain ⟨x, rfl⟩ := hi
    rfl
  · simp only [if_neg hi]
    exact exec_withSt hi s b

/-- Settles O23, from the laws that a write keeps the canonical form and that it is unique. -/
theorem memoryIsDeterminedByItsBytes : Obligations.MemoryIsDeterminedByItsBytes := by
  unfold Obligations.MemoryIsDeterminedByItsBytes
  exact ⟨Memory.wf_write, fun m k hm hk h => Memory.ext_of_read hm hk h⟩

/-- Settles O16: reset is CREATE with the default key table, which is a permutation. -/
theorem resetHasTheInvariant : Obligations.ResetHasTheInvariant := by
  unfold Obligations.ResetHasTheInvariant
  have hdefault : KeymapIsPermutation defaultParams := by decide
  exact ⟨create_has_inv hdefault Reset.variant, fun p v hp => create_has_inv hp v⟩

/-- The display after CREATE is blank (R39). -/
theorem get_create_disp (p : Params) (v : Variant) (y x : Nat) :
    Display.get (State.create p v).disp y x = false := by
  by_cases h : y < 64 ∧ x < 128
  · rw [Display.get_eq _ h.1 h.2]
    simp [State.create, Reset.cell]
  · exact Display.get_outside _ h

/-- Settles O59: the scalar fields by the definition of CREATE, and the register file, the display, the keypads and the
flag file cell by cell. -/
theorem createGivesTheResetValues : Obligations.CreateGivesTheResetValues := by
  unfold Obligations.CreateGivesTheResetValues
  intro p v s
  have hreg : ∀ r, s.reg r = 0 := fun r => Vector.getElem_replicate _
  have hkeys : ∀ j : KeyIndex, s.key[j.val] = false ∧ s.keyPrev[j.val] = false :=
    fun j => ⟨Vector.getElem_replicate _, Vector.getElem_replicate _⟩
  have hflags : ∀ j : Fin 8, s.flags[j.val] = 0 := fun j => Vector.getElem_replicate _
  exact ⟨⟨rfl, rfl, rfl, rfl, rfl⟩, hreg, rfl, Memory.read_nil, get_create_disp p v, rfl, hkeys, rfl, hflags, rfl, rfl⟩

end Sys2Proof.Machine
end

section
/-! SUPPORT. A fetched word as its two bytes (R63, R122), and the bytes that a step on `FX55` leaves in memory (R220). -/

namespace Sys2Proof.Machine

variable {s t : State} {x r : Reg}

@[simp] theorem hiByte_wordOfBytes (hi lo : Byte) : hiByte (wordOfBytes hi lo) = hi :=
  BitVec.extractLsb'_append_eq_left

@[simp] theorem loByte_wordOfBytes (hi lo : Byte) : loByte (wordOfBytes hi lo) = lo :=
  BitVec.extractLsb'_append_eq_right

/-- The high byte of the fetched word stands at the bounded `pc`. -/
theorem State.hiByte_fetchWord (s : State) : hiByte s.fetchWord = Memory.read s.mem (boundPc s.pc).toNat :=
  hiByte_wordOfBytes _ _

/-- The low byte of the fetched word stands at the address after the bounded `pc`. -/
theorem State.loByte_fetchWord (s : State) : loByte s.fetchWord = Memory.read s.mem ((boundPc s.pc).toNat + 1) :=
  loByte_wordOfBytes _ _

/-- `FX55` writes its register block at `I`. -/
theorem step_storeRegs_mem (hi : s.nextInstr = .storeRegs x) (h : step s = .next t) :
    t.mem = Memory.writeBlock s.mem s.i.toNat (s.regsUpTo x) := by
  rw [step_eq, hi] at h
  exact Host.Outcome.next.inj h ▸ rfl

/-- After `FX55` each stored register is read at its place in the block. -/
theorem read_after_step_storeRegs (hi : s.nextInstr = .storeRegs x) (h : step s = .next t) (hr : r ≤ x) :
    Memory.read t.mem (s.i.toNat + r.val) = s.reg r := by
  have hin : r.val < (s.regsUpTo x).length := by simpa using Nat.lt_succ_of_le hr
  have hlen : (s.regsUpTo x).length ≤ 4096 := by simp; omega
  rw [step_storeRegs_mem hi h, Memory.read_writeBlock_inside _ _ _ _ hin hlen, regsUpTo_getElem]

end Sys2Proof.Machine
end

section
/-! PROOFS. The statement of the family 20_memory: stored bytes are fetched next (R75). -/

namespace Sys2Proof.Machine

/-- Settles O20: each fetched byte is read from memory, where `FX55` left the register. -/
theorem storedBytesAreFetchedNext : Obligations.StoredBytesAreFetchedNext := by
  unfold Obligations.StoredBytesAreFetchedNext
  intro s t x hi h r hr
  have hread := read_after_step_storeRegs hi h hr
  constructor
  · intro haddr
    rw [State.hiByte_fetchWord, ← haddr, Memory.read_mod, hread]
  · intro haddr
    rw [State.loByte_fetchWord, ← Memory.read_congr t.mem (by simpa using haddr), hread]

end Sys2Proof.Machine
end

section
/-! SUPPORT. A word from its fixed digits, R103's list by the leading digit, and what each table of the decoder answers:
the encoding of its answer is the word, and the variant has the answer. -/

namespace Sys2Proof

variable {v : Variant} {w : Word}

/-! ### A word is built from its fixed digits and its operands -/

theorem wordNNN_eq_of_digit {a : Nibble} (hA : fieldA w = a) : wordNNN a (fieldNNN w) = w :=
  hA ▸ word_eq_wordNNN w

theorem wordXNN_eq_of_digit {a : Nibble} (hA : fieldA w = a) : wordXNN a (fieldX w) (fieldNN w) = w :=
  hA ▸ word_eq_wordXNN w

theorem wordXNN_eq_of_digits {a : Nibble} {nn : Byte} (hA : fieldA w = a) (hNN : fieldNN w = nn) :
    wordXNN a (fieldX w) nn = w :=
  hNN ▸ wordXNN_eq_of_digit hA

theorem wordXYN_eq_of_digit {a : Nibble} (hA : fieldA w = a) : wordXYN a (fieldX w) (fieldY w) (fieldN w) = w :=
  hA ▸ word_eq_wordXYN w

theorem wordXYN_eq_of_digits {a n : Nibble} (hA : fieldA w = a) (hN : fieldN w = n) :
    wordXYN a (fieldX w) (fieldY w) n = w :=
  hN ▸ wordXYN_eq_of_digit hA

/-- A word `0NNN` is determined by its `NNN`. -/
theorem eq_wordNNN_zero_of_digits {nnn : Addr} (hA : fieldA w = 0x0) (hNNN : fieldNNN w = nnn) : w = wordNNN 0x0 nnn :=
  hNNN ▸ (wordNNN_eq_of_digit hA).symm

/-- The two middle digits of a word are `0C` exactly where `NNN` without `N` is 0x0C0. -/
theorem middle_eq_0C_iff (w : Word) :
    w.extractLsb' 4 8 = 0x0C#8 ↔ 0x0C0 ≤ (fieldNNN w).toNat ∧ (fieldNNN w).toNat ≤ 0x0CF := by
  rw [BitVec.toNat_eq, BitVec.extractLsb'_toNat, Nat.shiftRight_eq_div_pow, fieldNNN_toNat, BitVec.toNat_ofNat]
  omega

/-- The upper three digits `00C` are those of `00CN` (R96). -/
theorem encode_scd_of_upper_digits (h : w.toNat / 16 = 0x00C) : encode (.scd (fieldN w)) = w := by
  have henc : (encode (.scd (fieldN w))).toNat = 0xC0 + (fieldN w).toNat := wordXYN_toNat 0x0 0x0 0xC (fieldN w)
  apply BitVec.eq_of_toNat_eq
  rw [henc, fieldN_toNat]
  omega

theorem upper_digits_of_middle (hA : fieldA w = 0x0) (hmid : w.extractLsb' 4 8 = 0x0C#8) : w.toNat / 16 = 0x00C := by
  have hlead : 0 = w.toNat / 4096 := (congrArg BitVec.toNat hA).symm.trans (fieldA_toNat w)
  have hNNN := (middle_eq_0C_iff w).mp hmid
  rw [fieldNNN_toNat] at hNNN
  omega

/-! ### R103's list, by the leading digit -/

theorem isUnmatchedWord_0 (hA : fieldA w = 0x0) :
    isUnmatchedWord v w = !(systemWords.contains (fieldNNN w).toNat ||
      (v.isSuper && decide (0x0C0 ≤ (fieldNNN w).toNat ∧ (fieldNNN w).toNat ≤ 0x0CF))) := by
  simp [isUnmatchedWord, ← fieldA_toNat, hA, fieldNNN_toNat]

theorem isUnmatchedWord_5_9 (hA : fieldA w = 0x5 ∨ fieldA w = 0x9) :
    isUnmatchedWord v w = decide ((fieldN w).toNat ≠ 0) := by
  rcases hA with hA | hA <;> simp [isUnmatchedWord, ← fieldA_toNat, hA, fieldN_toNat]

theorem isUnmatchedWord_8 (hA : fieldA w = 0x8) :
    isUnmatchedWord v w = [0x8, 0x9, 0xA, 0xB, 0xC, 0xD, 0xF].contains (fieldN w).toNat := by
  simp [isUnmatchedWord, ← fieldA_toNat, hA, fieldN_toNat]

theorem isUnmatchedWord_E (hA : fieldA w = 0xE) :
    isUnmatchedWord v w = !([0x9E, 0xA1].contains (fieldNN w).toNat) := by
  simp [isUnmatchedWord, ← fieldA_toNat, hA, fieldNN_toNat]

theorem isUnmatchedWord_F (hA : fieldA w = 0xF) :
    isUnmatchedWord v w = !((miscWords v).contains (fieldNN w).toNat) := by
  simp [isUnmatchedWord, ← fieldA_toNat, hA, fieldNN_toNat]

/-! ### Every answer of the decoder is faithful -/

/-- An answer of the decoder that keeps the word: its encoding is the word, and the variant has it. -/
def Instr.Faithful (v : Variant) (w : Word) (i : Instr) : Prop := encode i = w ∧ i.wf v = true

/-- Where R103 lists the word as unmatched, answering so is faithful. -/
theorem faithful_unmatched (h : isUnmatchedWord v w = true) : (Instr.unmatched w).Faithful v w := ⟨rfl, h⟩

/-- A row under a condition: the row where the condition holds, and elsewhere a word of R103's list. -/
theorem faithful_ite {c : Prop} [Decidable c] {i : Instr} (hrow : c → i.Faithful v w)
    (hlisted : ¬ c → isUnmatchedWord v w = true) : (if c then i else .unmatched w).Faithful v w := by
  split
  · exact hrow ‹_›
  · exact faithful_unmatched (hlisted ‹_›)

theorem decodeSystem_faithful (hA : fieldA w = 0x0) : (decodeSystem v w).Faithful v w := by
  unfold decodeSystem
  split
  case h_7 =>
    simp only [Bool.and_eq_true, beq_iff_eq]
    have henc := fun hmid => encode_scd_of_upper_digits (upper_digits_of_middle hA hmid)
    refine faithful_ite (fun ⟨hv, hmid⟩ => ⟨henc hmid, hv⟩) fun hscd => ?_
    rw [middle_eq_0C_iff] at hscd
    simp_all [isUnmatchedWord_0 hA, systemWords, BitVec.toNat_eq, ← Bool.not_eq_true, imp_iff_not_or]
  all_goals
    rename_i hNNN
    exact ⟨(eq_wordNNN_zero_of_digits hA hNNN).symm, rfl⟩

theorem decodeAlu_faithful (hA : fieldA w = 0x8) : (decodeAlu w).Faithful v w := by
  unfold decodeAlu
  split
  case h_10 =>
    refine faithful_unmatched ?_
    rw [isUnmatchedWord_8 hA]
    generalize fieldN w = n at *
    revert n
    decide
  all_goals exact ⟨wordXYN_eq_of_digits hA ‹_›, rfl⟩

theorem decodeKey_faithful (hA : fieldA w = 0xE) : (decodeKey w).Faithful v w := by
  unfold decodeKey
  split
  case h_3 =>
    refine faithful_unmatched ?_
    simp_all [isUnmatchedWord_E hA, BitVec.toNat_eq]
  all_goals exact ⟨wordXNN_eq_of_digits hA ‹_›, rfl⟩

theorem decodeMisc_faithful (hA : fieldA w = 0xF) : (decodeMisc v w).Faithful v w := by
  unfold decodeMisc
  split
  case h_13 =>
    refine faithful_unmatched ?_
    simp_all [isUnmatchedWord_F hA, miscWords, BitVec.toNat_eq]
  case h_7 hNN | h_11 hNN | h_12 hNN =>
    refine faithful_ite (fun hv => ⟨wordXNN_eq_of_digits hA hNN, hv⟩) fun hv => ?_
    simp [isUnmatchedWord_F hA, miscWords, hNN, hv]
  all_goals exact ⟨wordXNN_eq_of_digits hA ‹_›, rfl⟩

/-- Every answer of the decoder is faithful (R94, R102, R103). -/
theorem decode_faithful (v : Variant) (w : Word) : (decode v w).Faithful v w := by
  have hlisted : (fieldA w = 0x5 ∨ fieldA w = 0x9) → ¬ (fieldN w == 0#4) = true →
      isUnmatchedWord v w = true := by
    intro hA hN
    simpa [isUnmatchedWord_5_9 hA, BitVec.toNat_eq] using hN
  rcases nibble_cases (fieldA w) with h | h | h | h | h | h | h | h | h | h | h | h | h | h | h | h
  · rw [decode_0 h]; exact decodeSystem_faithful h
  · rw [decode_1 h]; exact ⟨wordNNN_eq_of_digit h, rfl⟩
  · rw [decode_2 h]; exact ⟨wordNNN_eq_of_digit h, rfl⟩
  · rw [decode_3 h]; exact ⟨wordXNN_eq_of_digit h, rfl⟩
  · rw [decode_4 h]; exact ⟨wordXNN_eq_of_digit h, rfl⟩
  · rw [decode_5 h]
    exact faithful_ite (fun hN => ⟨wordXYN_eq_of_digits h (eq_of_beq hN), rfl⟩) (hlisted (.inl h))
  · rw [decode_6 h]; exact ⟨wordXNN_eq_of_digit h, rfl⟩
  · rw [decode_7 h]; exact ⟨wordXNN_eq_of_digit h, rfl⟩
  · rw [decode_8 h]; exact decodeAlu_faithful h
  · rw [decode_9 h]
    exact faithful_ite (fun hN => ⟨wordXYN_eq_of_digits h (eq_of_beq hN), rfl⟩) (hlisted (.inr h))
  · rw [decode_A h]; exact ⟨wordNNN_eq_of_digit h, rfl⟩
  · rw [decode_B h]; exact ⟨wordNNN_eq_of_digit h, rfl⟩
  · rw [decode_C h]; exact ⟨wordXNN_eq_of_digit h, rfl⟩
  · rw [decode_D h]; exact ⟨wordXYN_eq_of_digit h, rfl⟩
  · rw [decode_E h]; exact decodeKey_faithful h
  · rw [decode_F h]; exact decodeMisc_faithful h

/-- The encoder inverts the decoder. -/
theorem encode_decode (v : Variant) (w : Word) : encode (decode v w) = w := (decode_faithful v w).1

/-- The variant has every instruction its decoder answers. -/
theorem wf_decode (v : Variant) (w : Word) : (decode v w).wf v = true := (decode_faithful v w).2

/-- An instruction that the variant has is what its word decodes to: one case per constructor. -/
theorem decode_encode {i : Instr} (h : i.wf v = true) : decode v (encode i) = i :=
  match i with
  | .cls => Laws.RoundTrip.cls v h
  | .ret => Laws.RoundTrip.ret v h
  | .scd n => Laws.RoundTrip.scd n v h
  | .scr => Laws.RoundTrip.scr v h
  | .scl => Laws.RoundTrip.scl v h
  | .low => Laws.RoundTrip.low v h
  | .high => Laws.RoundTrip.high v h
  | .jp nnn => Laws.RoundTrip.jp nnn v h
  | .call nnn => Laws.RoundTrip.call nnn v h
  | .seImm x nn => Laws.RoundTrip.seImm x nn v h
  | .sneImm x nn => Laws.RoundTrip.sneImm x nn v h
  | .seReg x y => Laws.RoundTrip.seReg x y v h
  | .ldImm x nn => Laws.RoundTrip.ldImm x nn v h
  | .addImm x nn => Laws.RoundTrip.addImm x nn v h
  | .ldReg x y => Laws.RoundTrip.ldReg x y v h
  | .orReg x y => Laws.RoundTrip.orReg x y v h
  | .andReg x y => Laws.RoundTrip.andReg x y v h
  | .xorReg x y => Laws.RoundTrip.xorReg x y v h
  | .addReg x y => Laws.RoundTrip.addReg x y v h
  | .subReg x y => Laws.RoundTrip.subReg x y v h
  | .shr x y => Laws.RoundTrip.shr x y v h
  | .subn x y => Laws.RoundTrip.subn x y v h
  | .shl x y => Laws.RoundTrip.shl x y v h
  | .sneReg x y => Laws.RoundTrip.sneReg x y v h
  | .ldI nnn => Laws.RoundTrip.ldI nnn v h
  | .jpV0 nnn => Laws.RoundTrip.jpV0 nnn v h
  | .rnd x nn => Laws.RoundTrip.rnd x nn v h
  | .drw x y n => Laws.RoundTrip.drw x y n v h
  | .skp x => Laws.RoundTrip.skp x v h
  | .sknp x => Laws.RoundTrip.sknp x v h
  | .ldVxDt x => Laws.RoundTrip.ldVxDt x v h
  | .ldVxK x => Laws.RoundTrip.ldVxK x v h
  | .ldDtVx x => Laws.RoundTrip.ldDtVx x v h
  | .ldStVx x => Laws.RoundTrip.ldStVx x v h
  | .addI x => Laws.RoundTrip.addI x v h
  | .ldF x => Laws.RoundTrip.ldF x v h
  | .ldHf x => Laws.RoundTrip.ldHf x v h
  | .ldB x => Laws.RoundTrip.ldB x v h
  | .storeRegs x => Laws.RoundTrip.storeRegs x v h
  | .loadRegs x => Laws.RoundTrip.loadRegs x v h
  | .storeFlags x => Laws.RoundTrip.storeFlags x v h
  | .loadFlags x => Laws.RoundTrip.loadFlags x v h
  | .unmatched w => Laws.RoundTrip.unmatched w v h

/-- Decoding a word under the variants that have an instruction with that word. -/
theorem decode_eq_of_encode_eq {i : Instr} (henc : encode i = w) (hwf : i.wf v = true) : decode v w = i :=
  henc ▸ decode_encode hwf

/-- The decoder leaves a word unmatched exactly where R103 lists it. -/
theorem decode_unmatched_iff : decode v w = .unmatched w ↔ isUnmatchedWord v w = true := by
  constructor
  · intro h
    have hwf := wf_decode v w
    rwa [h] at hwf
  · exact fun h => decode_eq_of_encode_eq rfl h

end Sys2Proof
end

section
/-! SUPPORT. The rows under a variant condition (R96 to R98), and the opcode table against the decoder (R94, R108): a
row's fixed digits decide what decoding a word of the row answers. -/

namespace Sys2Proof

open Sys2Proof.Machine

variable {v : Variant} {w : Word} {r : OpcodeRow} {i : Instr}

/-! ### The rows under a variant condition -/

theorem upper_digits_of_matches (h : w &&& 0xFFF0 = 0x00C0) : w.toNat / 16 = 0x00C := by
  have hmasked := congrArg BitVec.toNat h
  rw [mask_FFF0, append_toNat, BitVec.extractLsb'_toNat, Nat.shiftRight_eq_div_pow] at hmasked
  simp only [BitVec.ofNat_eq_ofNat, BitVec.toNat_ofNat] at hmasked
  omega

/-- `CHIP8` lists the words of the row `00CN` as unmatched (R96, R103). -/
theorem isUnmatchedWord_00CN (n : Nibble) : isUnmatchedWord .chip8 (encode (.scd n)) = true := by
  revert n
  decide

theorem decode_00CN (v : Variant) (h : w &&& 0xFFF0 = 0x00C0) :
    decode v w = if v = .chip8 then .unmatched w else .scd (fieldN w) := by
  have henc := encode_scd_of_upper_digits (upper_digits_of_matches h)
  split
  · subst v
    exact decode_unmatched_iff.mpr (henc ▸ isUnmatchedWord_00CN _)
  · exact decode_eq_of_encode_eq henc (isSuper_iff.mpr ‹_›)

theorem decode_FX30 (v : Variant) (h : w &&& 0xF0FF = 0xF030) :
    decode v w = if v = .chip8 then .unmatched w else .ldHf (fieldX w) := by
  obtain ⟨hA, hNN⟩ := mask_F0FF_eq (a := 0xF) (nn := 0x30) |>.mp h
  simp [decode_F hA, decodeMisc, hNN, isSuper_iff]

theorem decode_FX75 (v : Variant) (h : w &&& 0xF0FF = 0xF075) :
    decode v w = if v = .xochip then .storeFlags (fieldX w) else .unmatched w := by
  obtain ⟨hA, hNN⟩ := mask_F0FF_eq (a := 0xF) (nn := 0x75) |>.mp h
  simp [decode_F hA, decodeMisc, hNN, isXo_iff]

theorem decode_FX85 (v : Variant) (h : w &&& 0xF0FF = 0xF085) :
    decode v w = if v = .xochip then .loadFlags (fieldX w) else .unmatched w := by
  obtain ⟨hA, hNN⟩ := mask_F0FF_eq (a := 0xF) (nn := 0x85) |>.mp h
  simp [decode_F hA, decodeMisc, hNN, isXo_iff]

/-! ### Masking a word keeps its fixed digits -/

theorem fieldA_and_F000 (w : Word) : fieldA (w &&& 0xF000) = fieldA w :=
  mask_F000_eq.mp (by rw [BitVec.and_assoc, BitVec.and_self, mask_F000])

theorem fields_and_F00F (w : Word) : fieldA (w &&& 0xF00F) = fieldA w ∧ fieldN (w &&& 0xF00F) = fieldN w :=
  mask_F00F_eq.mp (by rw [BitVec.and_assoc, BitVec.and_self, mask_F00F])

theorem fields_and_F0FF (w : Word) : fieldA (w &&& 0xF0FF) = fieldA w ∧ fieldNN (w &&& 0xF0FF) = fieldNN w :=
  mask_F0FF_eq.mp (by rw [BitVec.and_assoc, BitVec.and_self, mask_F0FF])

/-! ### Masking the word of an instruction leaves its fixed digits -/

theorem wordNNN_and_F000 (a : Nibble) (nnn : Addr) : wordNNN a nnn &&& 0xF000 = wordNNN a 0 :=
  mask_F000_eq.mpr (fieldA_wordNNN a nnn)

theorem wordXNN_and_F000 (a : Nibble) (x : Reg) (nn : Byte) : wordXNN a x nn &&& 0xF000 = wordNNN a 0 :=
  mask_F000_eq.mpr (fieldA_wordXNN a x nn)

theorem wordXYN_and_F000 (a : Nibble) (x y : Reg) (n : Nibble) : wordXYN a x y n &&& 0xF000 = wordNNN a 0 :=
  mask_F000_eq.mpr (fieldA_wordXYN a x y n)

theorem wordXYN_and_F00F (a : Nibble) (x y : Reg) (n : Nibble) :
    wordXYN a x y n &&& 0xF00F = a ++ (0 : BitVec 8) ++ n :=
  mask_F00F_eq.mpr ⟨fieldA_wordXYN a x y n, fieldN_wordXYN a x y n⟩

theorem wordXNN_and_F0FF (a : Nibble) (x : Reg) (nn : Byte) :
    wordXNN a x nn &&& 0xF0FF = a ++ (0 : BitVec 4) ++ nn :=
  mask_F0FF_eq.mpr ⟨fieldA_wordXNN a x nn, fieldNN_wordXNN a x nn⟩

theorem encode_scd_and_FFF0 (n : Nibble) : encode (.scd n) &&& 0xFFF0 = 0x00C0 := by
  revert n
  decide

/-! ### The rows of the table -/

theorem OpcodeRow.matchesBits_iff : r.matchesBits w = true ↔ w &&& r.mask = r.pattern := beq_iff_eq

theorem OpcodeRow.selects_iff : r.selects v w = true ↔ w &&& r.mask = r.pattern ∧ v ∈ r.variants := by
  rw [OpcodeRow.selects, Bool.and_eq_true, OpcodeRow.matchesBits_iff, List.contains_iff_mem]

theorem mem_allVariants (v : Variant) : v ∈ allVariants := by cases v <;> decide

theorem mem_superVariants (h : v.isSuper = true) : v ∈ superVariants := by cases v <;> revert h <;> decide

/-- Two rows that match one word agree on the digits that both fix. -/
theorem patterns_agree_of_matches {q : OpcodeRow} (hr : r.matchesBits w = true) (hq : q.matchesBits w = true) :
    r.pattern &&& q.mask = q.pattern &&& r.mask := by
  rw [← OpcodeRow.matchesBits_iff.mp hr, ← OpcodeRow.matchesBits_iff.mp hq, BitVec.and_assoc, BitVec.and_assoc,
    BitVec.and_comm r.mask]

/-- Any two rows of the table differ in a digit that both fix. -/
theorem opcodeRows_differ : opcodeRows.Pairwise fun r q => r.pattern &&& q.mask ≠ q.pattern &&& r.mask := by
  decide

/-- The masks of the table, and the leading digits each occurs with. -/
def OpcodeRow.HasForm (r : OpcodeRow) : Prop :=
  r.mask = 0xFFFF ∨ (r.mask = 0xFFF0 ∧ r.pattern = 0x00C0) ∨
  (r.mask = 0xF000 ∧ fieldA r.pattern ∈ [0x1#4, 0x2#4, 0x3#4, 0x4#4, 0x6#4, 0x7#4, 0xA#4, 0xB#4, 0xC#4, 0xD#4]) ∨
  (r.mask = 0xF00F ∧ fieldA r.pattern ∈ [0x5#4, 0x8#4, 0x9#4]) ∨
  (r.mask = 0xF0FF ∧ fieldA r.pattern ∈ [0xE#4, 0xF#4])

theorem opcodeRows_form : ∀ r ∈ opcodeRows, r.HasForm := by
  unfold OpcodeRow.HasForm
  decide

/-- The pattern of a row, as a word, decodes to the row's instruction. -/
theorem decode_pattern : ∀ r ∈ opcodeRows, ∀ v ∈ r.variants, (decode v r.pattern).mnemonic = r.mnemonic := by
  decide

/-! ### Decoding reads the fixed digits of a row -/

theorem decodeAlu_mnemonic_congr {u : Word} (hN : fieldN w = fieldN u) :
    (decodeAlu w).mnemonic = (decodeAlu u).mnemonic := by
  unfold decodeAlu
  rw [hN]
  split <;> rfl

theorem decodeKey_mnemonic_congr {u : Word} (hNN : fieldNN w = fieldNN u) :
    (decodeKey w).mnemonic = (decodeKey u).mnemonic := by
  unfold decodeKey
  rw [hNN]
  split <;> rfl

theorem decodeMisc_mnemonic_congr {u : Word} (hNN : fieldNN w = fieldNN u) :
    (decodeMisc v w).mnemonic = (decodeMisc v u).mnemonic := by
  unfold decodeMisc
  rw [hNN]
  split
  case h_7 | h_11 | h_12 => split <;> rfl
  all_goals rfl

/-- Where the leading digit alone is fixed, it decides the instruction. -/
theorem decode_mnemonic_congr_of_digit {u : Word} (hA : fieldA w = fieldA u)
    (hu : fieldA u ∈ [0x1#4, 0x2#4, 0x3#4, 0x4#4, 0x6#4, 0x7#4, 0xA#4, 0xB#4, 0xC#4, 0xD#4]) :
    (decode v w).mnemonic = (decode v u).mnemonic := by
  unfold decode
  rw [hA]
  simp only [List.mem_cons, List.not_mem_nil, or_false] at hu
  rcases hu with h | h | h | h | h | h | h | h | h | h <;> rw [h] <;> rfl

/-- Decoding a word of a row answers the instruction of the row's pattern: no digit is read that the row leaves free. -/
theorem decode_mnemonic_of_matches (hform : r.HasForm) (h : w &&& r.mask = r.pattern) :
    (decode v w).mnemonic = (decode v r.pattern).mnemonic := by
  rcases hform with hm | ⟨hm, hp⟩ | ⟨hm, hp⟩ | ⟨hm, hp⟩ | ⟨hm, hp⟩ <;> rw [hm] at h
  · rw [← h, mask_FFFF]
  · rw [hp] at h
    rw [hp, decode_00CN v h, decode_00CN v (by decide)]
    split <;> rfl
  · have hA := fieldA_and_F000 w
    rw [h] at hA
    exact decode_mnemonic_congr_of_digit hA.symm hp
  · obtain ⟨hA, hN⟩ := fields_and_F00F w
    rw [h] at hA hN
    simp only [List.mem_cons, List.not_mem_nil, or_false] at hp
    rcases hp with hd | hd | hd
    · rw [decode_5 hd, decode_5 (hA ▸ hd), hN]
      split <;> rfl
    · rw [decode_8 hd, decode_8 (hA ▸ hd)]
      exact decodeAlu_mnemonic_congr hN.symm
    · rw [decode_9 hd, decode_9 (hA ▸ hd), hN]
      split <;> rfl
  · obtain ⟨hA, hNN⟩ := fields_and_F0FF w
    rw [h] at hA hNN
    simp only [List.mem_cons, List.not_mem_nil, or_false] at hp
    rcases hp with hd | hd
    · rw [decode_E hd, decode_E (hA ▸ hd)]
      exact decodeKey_mnemonic_congr hNN.symm
    · rw [decode_F hd, decode_F (hA ▸ hd)]
      exact decodeMisc_mnemonic_congr hNN.symm

/-- Decoding follows the row that a word selects. -/
theorem decode_mnemonic_of_selects (hr : r ∈ opcodeRows) (h : r.selects v w = true) :
    (decode v w).mnemonic = r.mnemonic := by
  obtain ⟨hmatch, hv⟩ := OpcodeRow.selects_iff.mp h
  exact (decode_mnemonic_of_matches (opcodeRows_form r hr) hmatch).trans (decode_pattern r hr v hv)

/-! ### The row of an instruction -/

/-- The row with an instruction's mnemonic, or the last row. -/
def Instr.row (i : Instr) : OpcodeRow := (opcodeRows.find? fun r => r.mnemonic == i.mnemonic).getD unmatchedRow

/-- The word of an instruction that the variant has selects the instruction's row. -/
theorem encode_selects_row (h : i.wf v = true) : i.row.selects v (encode i) = true := by
  rw [OpcodeRow.selects_iff]
  cases i with
  | cls | ret | scr | scl | low | high => exact ⟨rfl, mem_allVariants v⟩
  | scd n => exact ⟨encode_scd_and_FFF0 n, mem_superVariants h⟩
  | jp nnn | call nnn | ldI nnn | jpV0 nnn => exact ⟨wordNNN_and_F000 _ nnn, mem_allVariants v⟩
  | seImm x nn | sneImm x nn | ldImm x nn | addImm x nn | rnd x nn =>
    exact ⟨wordXNN_and_F000 _ x nn, mem_allVariants v⟩
  | seReg x y | ldReg x y | orReg x y | andReg x y | xorReg x y | addReg x y | subReg x y | shr x y | subn x y
  | shl x y | sneReg x y => exact ⟨wordXYN_and_F00F _ x y _, mem_allVariants v⟩
  | drw x y n => exact ⟨wordXYN_and_F000 _ x y n, mem_allVariants v⟩
  | skp x | sknp x | ldVxDt x | ldVxK x | ldDtVx x | ldStVx x | addI x | ldF x | ldB x | storeRegs x | loadRegs x =>
    exact ⟨wordXNN_and_F0FF _ x _, mem_allVariants v⟩
  | ldHf x => exact ⟨wordXNN_and_F0FF _ x _, mem_superVariants h⟩
  | storeFlags x | loadFlags x => exact ⟨wordXNN_and_F0FF _ x _, List.mem_singleton.mpr (isXo_iff.mp h)⟩
  | unmatched w => exact ⟨BitVec.and_zero, mem_allVariants v⟩

theorem row_mem_of_isSome (h : (opcodeRows.find? fun r => r.mnemonic == i.mnemonic).isSome = true) :
    i.row ∈ opcodeRows := by
  obtain ⟨r, hr⟩ := Option.isSome_iff_exists.mp h
  rw [Instr.row, hr]
  exact List.mem_of_find?_eq_some hr

/-- Every instruction but `unmatched` has a row of R94. -/
theorem row_mem_or_unmatched (i : Instr) : i.row ∈ opcodeRows ∨ ∃ w, i = .unmatched w := by
  cases i with
  | unmatched w => exact .inr ⟨w, rfl⟩
  | _ => exact .inl (row_mem_of_isSome rfl)

/-- A word that selects no row of R94 is unmatched. -/
theorem decode_unmatched_of_no_row (h : ∀ r ∈ opcodeRows, r.selects v w = false) : decode v w = .unmatched w := by
  have hrow : (decode v w).row.selects v w = true := by
    simpa only [encode_decode] using encode_selects_row (wf_decode v w)
  rcases row_mem_or_unmatched (decode v w) with hmem | ⟨u, hu⟩
  · rw [h _ hmem] at hrow
    cases hrow
  · have henc := encode_decode v w
    rw [hu] at henc ⊢
    exact congrArg Instr.unmatched henc

end Sys2Proof
end

section
/-! SUPPORT. The two SCHIP variants (R101): they decode alike, and an instruction that does not read `clips` commutes with
changing one into the other. -/

namespace Sys2Proof.Machine

variable {i : Instr}

/-- Decoding reads of the variant `is_super` and `is_xo` only (R96 to R98). -/
theorem decode_congr_variant {v u : Variant} (hsuper : v.isSuper = u.isSuper) (hxo : v.isXo = u.isXo) (w : Word) :
    decode v w = decode u w := by
  simp only [decode, decodeSystem, decodeMisc, hsuper, hxo]

/-- `s` as a machine of another variant. -/
def State.withVariant (s : State) (v : Variant) : State := { s with variant := v }

/-- A condition may be decided before or after the variant is set. -/
theorem State.withVariant_ite (c : Prop) [Decidable c] (s t : State) (v : Variant) :
    (if c then s else t).withVariant v = if c then s.withVariant v else t.withVariant v :=
  apply_ite (State.withVariant · v) c s t

theorem State.switchMode_withVariant (s : State) (v u : Variant) (hires : Bool) :
    (s.withVariant v).switchMode hires = ((s.withVariant u).switchMode hires).withVariant v := by
  have hcfg : ∀ v, (s.withVariant v).cfg = s.cfg := fun _ => rfl
  simp only [State.switchMode, State.withVariant_ite, hcfg]
  cases s.cfg.modeSwitchEffect <;> rfl

/-- With SCHIP11_IS_LEGACY both SCHIP variants clip, so a sprite covers the same cells. -/
theorem drawCells_withSchip (s : State) (hlegacy : s.cfg.schip11IsLegacy = true) (x y : Reg) (n : Nibble) :
    (s.withVariant .schip1_1).drawCells x y n = (s.withVariant .schip1_0).drawCells x y n := by
  have hclips : (s.withVariant .schip1_1).cfg.clips .schip1_1 = (s.withVariant .schip1_0).cfg.clips .schip1_0 := hlegacy
  have hsy : ∀ r, (s.withVariant .schip1_1).spriteY y r = (s.withVariant .schip1_0).spriteY y r := fun r =>
    congrArg (placeOnAxis · s.height (s.reg y).toNat r) hclips
  have hsx : ∀ c, (s.withVariant .schip1_1).spriteX x c = (s.withVariant .schip1_0).spriteX x c := fun c =>
    congrArg (placeOnAxis · s.width (s.reg x).toNat c) hclips
  have hrow : ∀ r, (s.withVariant .schip1_1).rowCells x y n r = (s.withVariant .schip1_0).rowCells x y n r := by
    intro r
    simp only [State.rowCells, hsy, hsx]
    rfl
  simp only [State.drawCells, hrow]
  rfl

/-- Of the variant a meaning reads `clips` in `DXYN`, and elsewhere predicates that hold of both SCHIP variants or of
neither. -/
theorem exec_withSchip (s : State) (h : s.cfg.schip11IsLegacy = true ∨ ∀ x y n, i ≠ .drw x y n) :
    exec i (s.withVariant .schip1_1) =
      Outcome.andThen (exec i (s.withVariant .schip1_0)) (·.withVariant .schip1_1) := by
  cases i with
  | drw x y n =>
    have hlegacy := h.resolve_right fun hne => hne x y n rfl
    simp only [exec, execDrw, drawCells_withSchip s hlegacy]
    rfl
  | ret =>
    have hstack : ∀ v, (s.withVariant v).stack = s.stack := fun _ => rfl
    simp only [exec, execRet, hstack]
    cases s.stack <;> rfl
  | call nnn =>
    simp only [exec, execCall, Outcome.andThen_ite]
    rfl
  | low => exact congrArg _ (s.switchMode_withVariant _ _ false)
  | high => exact congrArg _ (s.switchMode_withVariant _ _ true)
  | ldVxK x =>
    have hlatch : ∀ v, (s.withVariant v).latch = s.latch := fun _ => rfl
    simp only [exec, execLdVxK, hlatch]
    cases s.latch with
    | none => rfl
    | some k =>
      simp only [Outcome.andThen_ite]
      rfl
  | _ => rfl

end Sys2Proof.Machine
end

section
/-! PROOFS. The statements of the family 30_encoding: the round trips, the opcode table, R103's list, the fields, and what
the variant changes in decoding. -/

namespace Sys2Proof.Machine

/-- Settles O2: the round trip of each constructor. -/
theorem decodeOfEncodeIsIdentity : Obligations.DecodeOfEncodeIsIdentity := by
  unfold Obligations.DecodeOfEncodeIsIdentity
  exact fun _ _ h => decode_encode h

/-- Settles O3: every branch of the decoder answers faithfully. -/
theorem encodeOfDecodeIsIdentity : Obligations.EncodeOfDecodeIsIdentity := by
  unfold Obligations.EncodeOfDecodeIsIdentity
  exact decode_faithful

/-- Settles O4: two rows differ in a digit both fix; a word of a row decodes as the row's pattern does; and the word of
any other instruction than `unmatched` selects that instruction's row. -/
theorem decodeFollowsTheOpcodeTable : Obligations.DecodeFollowsTheOpcodeTable := by
  unfold Obligations.DecodeFollowsTheOpcodeTable
  exact ⟨fun _ => opcodeRows_differ.imp fun hdiffer ⟨hr, hq⟩ => hdiffer (patterns_agree_of_matches hr hq),
    fun _ _ => ⟨fun _ hr h => decode_mnemonic_of_selects hr h, decode_unmatched_of_no_row⟩⟩

/-- Settles O5: both directions from the round trips, since R103's list is what makes `.unmatched w` well formed. -/
theorem unmatchedWordsAreTheListedOnes : Obligations.UnmatchedWordsAreTheListedOnes := by
  unfold Obligations.UnmatchedWordsAreTheListedOnes
  exact ⟨fun _ _ => decode_unmatched_iff, fun v => by cases v <;> rfl⟩

/-- Settles O7, row by row. -/
theorem variantConditionsOfTheRows : Obligations.VariantConditionsOfTheRows := by
  unfold Obligations.VariantConditionsOfTheRows
  exact fun v w => ⟨decode_00CN v, decode_FX30 v, decode_FX75 v, decode_FX85 v⟩

/-- Settles O8: the two variants agree on the predicates that decoding reads, and instructions commute with exchanging
them. -/
theorem schipVariantsDifferOnlyInClipping : Obligations.SchipVariantsDifferOnlyInClipping := by
  unfold Obligations.SchipVariantsDifferOnlyInClipping
  exact ⟨decode_congr_variant rfl rfl, fun _ s h => exec_withSchip s h⟩

/-- Settles O1: the decoder evaluates on each word, whatever the variant. -/
theorem wordsWrittenOutDecode : Obligations.WordsWrittenOutDecode := by
  unfold Obligations.WordsWrittenOutDecode
  exact fun v => ⟨rfl, rfl, rfl, rfl, rfl, rfl, rfl, rfl, rfl, rfl, rfl, rfl⟩

/-- The register of `BNNN` is the digit `X` of the word (R93). -/
theorem jumpReg_fieldNNN (w : Word) : jumpReg (fieldNNN w) = fieldX w := by
  apply Fin.ext
  rw [jumpReg_eq, fieldNNN_toNat, fieldX_val]
  simp only [Fin.ofNat]
  omega

/-- Settles O6, from the value of each field. -/
theorem fieldsAreTheDigitsOfTheWord : Obligations.FieldsAreTheDigitsOfTheWord := by
  unfold Obligations.FieldsAreTheDigitsOfTheWord
  exact fun w => ⟨fieldA_toNat w, fieldX_val w, fieldY_val w, fieldN_toNat w, fieldNN_toNat w, fieldNNN_toNat w,
    jumpReg_fieldNNN w⟩

end Sys2Proof.Machine
end

section
/-! SUPPORT. The phases of one step (R120 to R128): the word it fetches, what it leaves in the timers and the keypads, when
it is refused, and the state in which a jump to itself parks the core. -/

namespace Sys2Proof.Machine

variable {i : Instr} {s t : State}

/-! ### The fetch (R122) -/

/-- The word a step fetches, as the two bytes at the bounded `pc`. -/
theorem State.fetchWord_eq (s : State) :
    s.fetchWord = Memory.read s.mem (boundPc s.pc).toNat ++ Memory.read s.mem ((boundPc s.pc).toNat + 1) := rfl

/-- A step on an unmatched word does what its other phases do (R127). -/
theorem step_unmatched {w : Word} (hi : s.nextInstr = .unmatched w) : step s = .next s.beginStep.endStep := by
  rw [step_eq, hi]
  rfl

/-! ### The keypads and the timers (R126, R130) -/

/-- No instruction writes the snapshot (R126). -/
theorem Effect.keyPrev_eq (h : Effect i s t) : t.keyPrev = s.keyPrev := by cases h <;> subst_vars <;> rfl

/-- An instruction leaves `DT`, or is `FX15` and copies a register to it (R130, R271). -/
theorem Effect.dt_cases (h : Effect i s t) : t.dt = s.dt ∨ ∃ x, i = .ldDtVx x ∧ t.dt = s.reg x := by
  cases h with
  | delayTimer x hi he => exact .inr ⟨x, hi, congrArg State.dt he⟩
  | _ => subst_vars; exact .inl rfl

/-- An instruction leaves `ST`, or is `FX18` and copies a register to it (R130, R272). -/
theorem Effect.st_cases (h : Effect i s t) : t.st = s.st ∨ ∃ x, i = .ldStVx x ∧ t.st = s.reg x := by
  cases h with
  | soundTimer x hi he => exact .inr ⟨x, hi, congrArg State.st he⟩
  | _ => subst_vars; exact .inl rfl

/-- A step leaves the live keypad as it was, and the snapshot is that keypad (R126, R130). -/
theorem step_keys (h : step s = .next t) : t.keyPrev = s.key ∧ t.key = s.key := by
  obtain ⟨u, -, heffect, rfl⟩ := step_next h
  exact ⟨heffect.key_eq, heffect.key_eq⟩

/-! ### Refusals (R26, R224, R226) -/

theorem State.stackHasRoom_eq_false :
    s.stackHasRoom = false ↔ ∃ depth, s.cfg.stackDepth = some depth ∧ depth ≤ s.stack.length := by
  unfold State.stackHasRoom
  cases s.cfg.stackDepth <;> simp

theorem State.refusesFlagTransfer_iff {x : Reg} :
    s.refusesFlagTransfer x = true ↔ 7 < x.val ∧ s.cfg.flagsXGt7 = .refuse := by
  simp [State.refusesFlagTransfer]

/-- A refused instruction refuses the step. -/
theorem step_refused {r : Refusal} (h : exec s.nextInstr s.beginStep = .refused r) : step s = .refused r :=
  Outcome.andThen_eq_refused.mpr h

/-- A step completes, or runs `2NNN` on a full bounded stack, or `FX75` or `FX85` with `X > 7` where the parameter refuses
that. -/
theorem step_next_or_refused (s : State) :
    (∃ t, step s = .next t) ∨
    (step s = .refused .stackFull ∧ (∃ nnn, s.nextInstr = .call nnn) ∧
      ∃ depth, s.cfg.stackDepth = some depth ∧ depth ≤ s.stack.length) ∨
    (step s = .refused .flagTransferTooLong ∧ s.cfg.flagsXGt7 = .refuse ∧ s.variant = .xochip ∧
      ∃ x : Reg, 7 < x.val ∧ (s.nextInstr = .storeFlags x ∨ s.nextInstr = .loadFlags x)) := by
  rcases exec_next_or_refused s.nextInstr s.beginStep with ⟨u, hu⟩ | ⟨hr, hcall, hfull⟩ | ⟨hr, hv, x, hx, hi⟩
  · exact .inl ⟨u.endStep, Outcome.andThen_eq_next.mpr ⟨u, hu, rfl⟩⟩
  · exact .inr (.inl ⟨step_refused hr, hcall, State.stackHasRoom_eq_false.mp hfull⟩)
  · obtain ⟨hlong, hrefuse⟩ := State.refusesFlagTransfer_iff.mp hx
    exact .inr (.inr ⟨step_refused hr, hrefuse, hv, x, hlong, hi⟩)

/-- An unbounded stack and clamped flag transfers exclude both refusals (R11). -/
theorem step_next_of_noStepRefused (hp : NoStepRefusedBy s.cfg) : ∃ t, step s = .next t := by
  obtain ⟨hclamp, hunbounded⟩ := hp
  rcases step_next_or_refused s with hnext | ⟨-, -, depth, hdepth, -⟩ | ⟨-, hrefuse, -⟩
  · exact hnext
  · cases hunbounded.symm.trans hdepth
  · cases hclamp.symm.trans hrefuse

/-! ### A jump to its own address (R131) -/

/-- The state in which a jump to itself leaves the core: only `displayed` and the snapshot may differ from before. -/
def State.parked (s : State) : State := { s with displayed := false, keyPrev := s.key }

/-- A jump to the address it stands at puts `pc` back (R162). -/
theorem step_jump_self {nnn : Addr} (hi : s.nextInstr = .jp nnn) (hpc : s.pc.toNat = nnn.toNat) :
    step s = .next s.parked := by
  have hback : nnn.setWidth 16 = s.pc := by
    apply BitVec.eq_of_toNat_eq
    rw [BitVec.toNat_setWidth_of_le (by decide), hpc]
  have hstep : step s = .next { s.parked with pc := nnn.setWidth 16 } := by
    rw [step_eq, hi]
    rfl
  rw [hstep, hback]
  rfl

/-- The parked state still holds the jump, and parks again as itself. -/
theorem run_jump_self {nnn : Addr} (hi : s.nextInstr = .jp nnn) (hpc : s.pc.toNat = nnn.toNat) (n : Nat) :
    Host.Core.run Sys2Proof.core (n + 1) s = .next s.parked := by
  induction n generalizing s with
  | zero => exact run_succ (step_jump_self hi hpc) 0
  | succ n ih =>
    rw [run_succ (step_jump_self hi hpc)]
    exact ih (s := s.parked) hi hpc

end Sys2Proof.Machine
end

section
/-! PROOFS. The statements of the family 40_step_cycle: the six phases, the snapshot, what a step never writes, when it
completes, and the parking jump. -/

namespace Sys2Proof.Machine

/-- Settles O11: no instruction writes either keypad, so the snapshot phase copies the keys the step began with. -/
theorem snapshotEndsEveryStep : Obligations.SnapshotEndsEveryStep := by
  unfold Obligations.SnapshotEndsEveryStep
  exact ⟨fun _ _ h => step_keys h, fun _ _ _ h => ⟨(exec_effect h).keyPrev_eq, (exec_effect h).key_eq⟩⟩

/-- Settles O13, from what an instruction leaves in each field; the phases around it write none of them. -/
theorem stepNeverTouchesTimersKeysVariant : Obligations.StepNeverTouchesTimersKeysVariant := by
  unfold Obligations.StepNeverTouchesTimersKeysVariant
  intro s t h
  obtain ⟨u, -, heffect, rfl⟩ := step_next h
  exact ⟨heffect.key_eq, heffect.variant_eq, heffect.dt_cases, heffect.st_cases⟩

/-- Settles O14: only two meanings refuse, each under the parameter that its clause names. -/
theorem everyStepCompletes : Obligations.EveryStepCompletes := by
  unfold Obligations.EveryStepCompletes
  exact ⟨fun _ hp => step_next_of_noStepRefused hp, step_next_or_refused⟩

/-- Settles O21: one step parks the core, and by induction every further step finds the same jump. -/
theorem jumpToItselfParks : Obligations.JumpToItselfParks := by
  unfold Obligations.JumpToItselfParks
  exact fun _ _ hi hpc n => run_jump_self hi hpc n

/-- Settles O9: the address and the word of the statement are the model's bounded `pc` and fetched word, and decoding
answers an instruction of the variant. -/
theorem stepRunsTheDecodedInstruction : Obligations.StepRunsTheDecodedInstruction := by
  unfold Obligations.StepRunsTheDecodedInstruction
  intro s a w
  have ha : boundPc s.pc = a := boundPc_eq s.pc
  have hw : s.fetchWord = w := by rw [State.fetchWord_eq, ha]
  have hbegin : s.beginStep = { s with displayed := false, pc := a + 2 } := by rw [State.beginStep, ha]
  refine ⟨wf_decode s.variant w, ?_⟩
  rw [step_eq, State.nextInstr, hw, hbegin]
  rfl

/-- Settles O10: phase 5 does nothing, so the step is what the phases around it do. -/
theorem unmatchedWordIsANoOperation : Obligations.UnmatchedWordIsANoOperation := by
  unfold Obligations.UnmatchedWordIsANoOperation
  refine ⟨fun _ _ => rfl, fun s w hi => ?_⟩
  rw [step_unmatched hi, ← boundPc_eq]
  rfl

end Sys2Proof.Machine
end

section
/-! SUPPORT. Cells and frames of the display control: what a scroll does inside and outside the active window, and what
each choice of MODE_SWITCH_EFFECT does (R140 to R152). -/

namespace Sys2Proof.Machine

variable {s : State}

/-! ### Scrolls -/

/-- What R142, R145 and R147 share: the cells inside the window, the cells outside it, and the frame. -/
theorem scroll_spec (s : State) (f : Nat → Nat → Bool) :
    (∀ y x, y < s.height → x < s.width → Display.get (s.scroll f).disp y x = f y x) ∧
    (∀ y x, ¬ (y < s.height ∧ x < s.width) → Display.get (s.scroll f).disp y x = Display.get s.disp y x) ∧
    OnlyDisplayChanges s (s.scroll f) :=
  ⟨fun y x hy hx => by rw [get_scroll, if_pos ⟨hy, hx⟩], fun y x h => by rw [get_scroll, if_neg h],
    onlyDisplayChanges_scroll s f⟩

theorem execScd_chip8 {n : Nibble} (hv : s.variant = .chip8) : execScd n s = .next s :=
  if_neg (by rw [hv, isSuper_chip8]; decide)

theorem execScd_super {n : Nibble} (hv : s.variant ≠ .chip8) :
    execScd n s =
      .next (s.scroll fun y x => if n.toNat ≤ y then Display.get s.disp (y - n.toNat) x else false) :=
  if_pos (isSuper_iff.mpr hv)

/-! ### Mode switches -/

variable {b : Bool}

theorem State.switchMode_same (h : s.hires = b) : s.switchMode b = s := if_pos h

theorem State.switchMode_keep (hm : s.cfg.modeSwitchEffect = .keep) : s.switchMode b = { s with hires := b } := by
  unfold State.switchMode
  split
  · subst b; rfl
  · rw [hm]

theorem State.switchMode_clear (hm : s.cfg.modeSwitchEffect = .clear) (h : s.hires ≠ b) :
    s.switchMode b = { s with hires := b, disp := Display.blank } := by
  rw [State.switchMode, if_neg h, hm]

theorem State.switchMode_havoc (hm : s.cfg.modeSwitchEffect = .havoc) (h : s.hires ≠ b) :
    s.switchMode b =
      { s with hires := b, disp := Display.build (Config.freeCell s.draws), draws := s.draws + 1 } := by
  rw [State.switchMode, if_neg h, hm]

/-- A mode switch writes no field but the mode, the display and the draw number. -/
theorem State.switchMode_eq (s : State) (b : Bool) :
    s.switchMode b =
      { s with hires := (s.switchMode b).hires, disp := (s.switchMode b).disp, draws := (s.switchMode b).draws } := by
  rcases switchMode_cases s b with he | he | ⟨-, _, he⟩ | ⟨-, _, _, he⟩ <;> rw [he]

theorem State.switchMode_hires (s : State) (b : Bool) : (s.switchMode b).hires = b := by
  by_cases h : s.hires = b
  · rw [State.switchMode_same h, h]
  · rw [State.switchMode, if_neg h]
    cases s.cfg.modeSwitchEffect <;> rfl

/-- Everything that R150 to R152 and decision D11 say of a switch to either mode. -/
theorem State.switchMode_spec (s : State) (b : Bool) :
    (s.switchMode b).hires = b ∧ (s.hires = b → s.switchMode b = s) ∧
    (s.cfg.modeSwitchEffect = .keep → s.switchMode b = { s with hires := b }) ∧
    (s.cfg.modeSwitchEffect = .clear → s.hires ≠ b → ∀ y x, Display.get (s.switchMode b).disp y x = false) ∧
    (s.cfg.modeSwitchEffect = .havoc → s.hires ≠ b → (s.switchMode b).draws = s.draws + 1 ∧
      ∀ y x, y < 64 → x < 128 → Display.get (s.switchMode b).disp y x = Config.freeCell s.draws y x) ∧
    SameRegsBut [] s (s.switchMode b) ∧ SameMemory s (s.switchMode b) ∧
    s.switchMode b =
      { s with hires := (s.switchMode b).hires, disp := (s.switchMode b).disp, draws := (s.switchMode b).draws } := by
  have heq := s.switchMode_eq b
  have hv : (s.switchMode b).v = s.v := by rw [heq]
  have hmem : (s.switchMode b).mem = s.mem := by rw [heq]
  refine ⟨s.switchMode_hires b, State.switchMode_same, State.switchMode_keep, fun hm h y x => ?_, fun hm h => ?_,
    fun r _ => State.reg_congr hv r, fun a => congrArg (Memory.read · a) hmem, heq⟩
  · rw [State.switchMode_clear hm h, Display.get_blank]
  · rw [State.switchMode_havoc hm h]
    exact ⟨rfl, fun y x hy hx => by rw [Display.get_build, if_pos ⟨hy, hx⟩]⟩

end Sys2Proof.Machine
end

section
/-! PROOFS. The statements of the family 41_display_control: the scrolls, the mode switches and CLS. -/

namespace Sys2Proof.Machine

/-- Settles O46: without the row nothing happens; with it the meaning is a scroll. -/
theorem scrollDownMovesTheWindow : Obligations.ScrollDownMovesTheWindow := by
  unfold Obligations.ScrollDownMovesTheWindow
  exact fun n s => ⟨execScd_chip8, fun hv => ⟨_, execScd_super hv, scroll_spec s _⟩⟩

/-- Settles O47: both meanings are scrolls. -/
theorem sidewaysScrollsMoveTheWindow : Obligations.SidewaysScrollsMoveTheWindow := by
  unfold Obligations.SidewaysScrollsMoveTheWindow
  exact fun s => ⟨⟨_, rfl, scroll_spec s _⟩, ⟨_, rfl, scroll_spec s _⟩⟩

/-- Settles O48: both meanings are one mode switch, to the mode that the list pairs with them. -/
theorem modeSwitches : Obligations.ModeSwitches := by
  unfold Obligations.ModeSwitches
  intro s p hp
  have hexec : exec p.1 s = .next (s.switchMode p.2) := by
    simp only [List.mem_cons, List.not_mem_nil, or_false] at hp
    rcases hp with rfl | rfl <;> rfl
  exact ⟨s.switchMode p.2, hexec, s.switchMode_spec p.2⟩

/-- Settles O45: CLS answers the blank display, whose cells are all 0. -/
theorem clearEmptiesTheWholeStorage : Obligations.ClearEmptiesTheWholeStorage := by
  unfold Obligations.ClearEmptiesTheWholeStorage
  exact fun s => ⟨{ s with disp := Display.blank }, rfl, Display.get_blank, fun _ _ => rfl, fun _ => rfl, rfl⟩

end Sys2Proof.Machine
end

section
/-! SUPPORT. The control flow: where each jump, call, return and skip leaves `pc` and the stack, and that the rest of the
state stays as it was. -/

namespace Sys2Proof.Machine

variable {s : State}

/-! ### Frames -/

theorem onlyPcChanges_withPc (s : State) (pc : Word) : OnlyPcChanges s { s with pc := pc } :=
  ⟨fun _ _ => rfl, fun _ => rfl, rfl⟩

/-- Nothing but `pc` and the call stack changes. -/
def OnlyPcAndStackChange (s t : State) : Prop :=
  SameRegsBut [] s t ∧ SameMemory s t ∧ t = { s with pc := t.pc, stack := t.stack }

theorem onlyPcAndStackChange_withPcStack (s : State) (pc : Word) (stack : List Word) :
    OnlyPcAndStackChange s { s with pc := pc, stack := stack } :=
  ⟨fun _ _ => rfl, fun _ => rfl, rfl⟩

/-! ### Jump targets (R92, R175) -/

theorem Addr.setWidth_toNat (nnn : Addr) : (nnn.setWidth 16).toNat = nnn.toNat :=
  BitVec.toNat_setWidth_of_le (by decide)

/-- A 12-bit address and one byte add up to less than 65536, so the sum does not wrap. -/
theorem Addr.setWidth_add_byte_toNat (nnn : Addr) (b : Byte) :
    (nnn.setWidth 16 + b.setWidth 16).toNat = nnn.toNat + b.toNat := by
  have hb : (b.setWidth 16).toNat = b.toNat := BitVec.toNat_setWidth_of_le (by decide)
  have hlt : nnn.toNat + b.toNat < 2 ^ 16 := by omega
  rw [BitVec.toNat_add_of_lt (by rwa [setWidth_toNat, hb]), setWidth_toNat, hb]

theorem isSchip_iff {v : Variant} : v.isSchip = true ↔ v = .schip1_0 ∨ v = .schip1_1 := by
  cases v <;> simp [Variant.isSchip]

/-- Which variants add `V[X]` in `BNNN` (R175, decision D7). -/
theorem jumpUsesVx_iff {p : Params} {v : Variant} :
    p.jumpUsesVx v = true ↔ v = .schip1_0 ∨ v = .schip1_1 ∨ (v = .xochip ∧ p.bnnnXochipUsesVx = true) := by
  rw [Params.jumpUsesVx, Bool.or_eq_true, Bool.and_eq_true, isSchip_iff, isXo_iff, or_assoc]

theorem State.jumpOffset_eq (s : State) (nnn : Addr) :
    s.jumpOffset nnn =
      if s.variant = .schip1_0 ∨ s.variant = .schip1_1 ∨ (s.variant = .xochip ∧ s.cfg.bnnnXochipUsesVx = true)
      then s.reg (Fin.ofNat 16 (nnn.toNat / 256)) else s.reg 0 := by
  rw [State.jumpOffset, jumpReg_eq]
  exact if_congr jumpUsesVx_iff rfl rfl

/-! ### The call stack (R160, R164) -/

theorem execRet_of_empty (h : s.stack = []) : execRet s = .next { s with pc := 0x0200, stack := [] } := by
  simp only [execRet, h]

theorem execRet_of_cons {a : Word} {rest : List Word} (h : s.stack = a :: rest) :
    execRet s = .next { s with pc := a, stack := rest } := by
  simp only [execRet, h]

theorem State.stackHasRoom_eq_true :
    s.stackHasRoom = true ↔ ∀ depth, s.cfg.stackDepth = some depth → s.stack.length < depth := by
  rw [← Bool.not_eq_false, State.stackHasRoom_eq_false]
  push Not
  rfl

theorem execCall_of_room {nnn : Addr} (h : s.stackHasRoom = true) :
    execCall nnn s = .next { s with pc := nnn.setWidth 16, stack := s.pc :: s.stack } :=
  if_pos h

theorem execCall_of_full {nnn : Addr} (h : s.stackHasRoom = false) : execCall nnn s = .refused .stackFull :=
  if_neg (Bool.eq_false_iff.mp h)

/-! ### Skips (R166) -/

/-- A skip whose test `c` decides the condition `p` moves `pc` on by a further 2 exactly when `p` holds. -/
theorem State.skipIf_spec (s : State) {c : Bool} {p : Prop} [Decidable p] (h : c = true ↔ p) :
    (s.skipIf c).pc = (if p then s.pc + 2 else s.pc) ∧ OnlyPcChanges s (s.skipIf c) :=
  ⟨if_congr h rfl rfl, onlyPcChanges_skipIf s c⟩

end Sys2Proof.Machine
end

section
/-! PROOFS. The statements of the family 42_control_flow: the offset jump, the return and the jump, the call and the
skips. -/

namespace Sys2Proof.Machine

/-- Settles O33: the sum does not wrap, and the offset is the register the statement names. -/
theorem offsetJumpAddsARegister : Obligations.OffsetJumpAddsARegister := by
  unfold Obligations.OffsetJumpAddsARegister
  intro nnn s
  refine ⟨{ s with pc := nnn.setWidth 16 + (s.jumpOffset nnn).setWidth 16 }, rfl, ?_, onlyPcChanges_withPc s _⟩
  rw [Addr.setWidth_add_byte_toNat, State.jumpOffset_eq]

/-- Settles O30: the return by whether the stack is empty; the jump zero-extends its address. -/
theorem returnAndJump : Obligations.ReturnAndJump := by
  unfold Obligations.ReturnAndJump
  refine ⟨fun v => ⟨rfl, fun w hw => decode_1 (mask_F000_eq.mp hw)⟩, fun s => ⟨?_, fun nnn => ?_⟩⟩
  · cases hstack : s.stack with
    | nil =>
      exact ⟨_, execRet_of_empty hstack, fun _ => ⟨rfl, rfl⟩, fun _ _ => nofun, onlyPcAndStackChange_withPcStack s _ _⟩
    | cons a rest =>
      refine ⟨_, execRet_of_cons hstack, nofun, fun b more h => ?_, onlyPcAndStackChange_withPcStack s _ _⟩
      exact List.cons.inj h
  · exact ⟨_, rfl, Addr.setWidth_toNat nnn, onlyPcChanges_withPc s _⟩

/-- Settles O31: STACK_DEPTH leaves room, or the stack is full and the call is refused. -/
theorem callPushesTheReturnAddress : Obligations.CallPushesTheReturnAddress := by
  unfold Obligations.CallPushesTheReturnAddress
  refine fun nnn s => ⟨fun hroom => ?_, fun depth hdepth hfull => ?_⟩
  · exact ⟨_, execCall_of_room (State.stackHasRoom_eq_true.mpr hroom), Addr.setWidth_toNat nnn, rfl,
      onlyPcAndStackChange_withPcStack s _ _⟩
  · exact execCall_of_full (State.stackHasRoom_eq_false.mpr ⟨depth, hdepth, hfull⟩)

/-- Settles O32: each of the four meanings is one skip, and its test decides the condition of the statement. -/
theorem skipsAdvanceOneMoreWord : Obligations.SkipsAdvanceOneMoreWord := by
  unfold Obligations.SkipsAdvanceOneMoreWord
  intro x y nn s
  exact ⟨⟨_, rfl, s.skipIf_spec beq_iff_eq⟩, ⟨_, rfl, s.skipIf_spec bne_iff_ne⟩,
    ⟨_, rfl, s.skipIf_spec beq_iff_eq⟩, ⟨_, rfl, s.skipIf_spec bne_iff_ne⟩⟩

end Sys2Proof.Machine
end

section
/-! SUPPORT. The register file and ALU: decoding the rows `8XYN`, what a result and its flag leave in the registers, and
each flag and result as a number (R180 to R196). -/

namespace Sys2Proof

/-- A word of the row `8XYN` decodes to the instruction whose encoding has the word's digits (R94, R95). -/
theorem decode_8XYN {v : Variant} {w : Word} {n : Nibble} {i : Instr} (h : w &&& 0xF00F = 0x8#4 ++ 0#8 ++ n)
    (henc : encode i = wordXYN 0x8 (fieldX w) (fieldY w) n) (hwf : i.wf v = true) : decode v w = i := by
  obtain ⟨hA, hN⟩ := mask_F00F_eq.mp h
  exact decode_eq_of_encode_eq (henc.trans (wordXYN_eq_of_digits hA hN)) hwf

end Sys2Proof

namespace Sys2Proof.Machine

/-! ### A result and its flag (R182, decision D18) -/

theorem State.reg_setRegThenFlag_same (s : State) {x : Reg} (hx : x ≠ 15) (r f : Byte) :
    (s.setRegThenFlag x r f).reg x = r := by
  rw [State.reg_setRegThenFlag, if_neg hx, if_pos rfl]

@[simp] theorem State.reg_setRegThenFlag_vf (s : State) (x : Reg) (r f : Byte) :
    (s.setRegThenFlag x r f).reg 15 = f := by
  rw [State.reg_setRegThenFlag, if_pos rfl]

/-- Reading back a result and its flag: `V[x]` as a number, unless `x` is `VF`, then `VF`, and the frame. -/
theorem State.setRegThenFlag_spec (s : State) (x : Reg) {r f : Byte} {n : Nat} (hr : r.toNat = n) :
    (x ≠ 15 → ((s.setRegThenFlag x r f).reg x).toNat = n) ∧ (s.setRegThenFlag x r f).reg 15 = f ∧
      OnlyRegsChange [x, 15] s (s.setRegThenFlag x r f) :=
  ⟨fun hx => by rw [s.reg_setRegThenFlag_same hx, hr], s.reg_setRegThenFlag_vf x r f,
    onlyRegsChange_setRegThenFlag s x r f⟩

/-- The same with the flag as a number. -/
theorem State.setRegThenFlag_toNat_spec (s : State) (x : Reg) {r f : Byte} {n m : Nat} (hr : r.toNat = n)
    (hf : f.toNat = m) :
    (x ≠ 15 → ((s.setRegThenFlag x r f).reg x).toNat = n) ∧ ((s.setRegThenFlag x r f).reg 15).toNat = m ∧
      OnlyRegsChange [x, 15] s (s.setRegThenFlag x r f) := by
  obtain ⟨hres, hflag, hframe⟩ := s.setRegThenFlag_spec x (f := f) hr
  exact ⟨hres, by rw [hflag, hf], hframe⟩

/-! ### Logic results (R186 to R188) -/

theorem State.setLogicResult_chip8 {s : State} (hv : s.variant = .chip8) (x : Reg) (r : Byte) :
    s.setLogicResult x r = s.setRegThenFlag x r 0 :=
  if_pos (isChip8_iff.mpr hv)

theorem State.setLogicResult_of_ne_chip8 {s : State} (hv : s.variant ≠ .chip8) (x : Reg) (r : Byte) :
    s.setLogicResult x r = s.setReg x r :=
  if_neg (mt isChip8_iff.mp hv)

theorem State.setLogicResult_spec (s : State) (x : Reg) (r : Byte) :
    (s.variant = .chip8 → (s.setLogicResult x r).reg 15 = 0 ∧ (x ≠ 15 → (s.setLogicResult x r).reg x = r) ∧
      OnlyRegsChange [x, 15] s (s.setLogicResult x r)) ∧
    (s.variant ≠ .chip8 → (s.setLogicResult x r).reg x = r ∧ OnlyRegsChange [x] s (s.setLogicResult x r)) := by
  constructor
  · intro hv
    rw [State.setLogicResult_chip8 hv]
    exact ⟨s.reg_setRegThenFlag_vf x r 0, fun hx => s.reg_setRegThenFlag_same hx r 0,
      onlyRegsChange_setRegThenFlag s x r 0⟩
  · intro hv
    rw [State.setLogicResult_of_ne_chip8 hv]
    exact ⟨s.reg_setReg_same x r, onlyRegsChange_setReg s x r⟩

/-! ### Flags and results as numbers (R181) -/

theorem carryFlag_eq (a b : Byte) : carryFlag a b = if 256 ≤ a.toNat + b.toNat then 1 else 0 := by
  simp only [carryFlag, flagByte, decide_eq_true_eq]

theorem notBorrowFlag_eq (a b : Byte) : notBorrowFlag a b = if b.toNat ≤ a.toNat then 1 else 0 := by
  simp only [notBorrowFlag, flagByte, decide_eq_true_eq]

theorem byte_sub_toNat (a b : Byte) : (a - b).toNat = (a.toNat + 256 - b.toNat) % 256 := by
  rw [BitVec.toNat_sub]
  omega

theorem byte_shiftRight_one_toNat (b : Byte) : (b >>> 1).toNat = b.toNat / 2 := by
  rw [BitVec.toNat_ushiftRight, Nat.shiftRight_one]

theorem byte_shiftLeft_one_toNat (b : Byte) : (b <<< 1).toNat = b.toNat * 2 % 256 := by
  rw [BitVec.toNat_shiftLeft, Nat.shiftLeft_eq, pow_one]

/-- A masked byte has no bit that is clear in the mask. -/
theorem byte_and_and_not_self (a mask : Byte) : a &&& mask &&& ~~~mask = 0 := by
  rw [BitVec.and_assoc, BitVec.and_not_self]
  exact BitVec.and_zero

end Sys2Proof.Machine
end

section
/-! PROOFS. The statements of the family 43_load_alu: the loads, the logic, the sums and differences, the shifts and the
random byte. -/

namespace Sys2Proof.Machine

/-- Settles O25: each of the three meanings writes a logic result, of the operands that the list pairs with it. -/
theorem logicInstructions : Obligations.LogicInstructions := by
  unfold Obligations.LogicInstructions
  refine ⟨fun v w => ⟨fun h => decode_8XYN (n := 0x1) h rfl rfl, fun h => decode_8XYN (n := 0x2) h rfl rfl,
    fun h => decode_8XYN (n := 0x3) h rfl rfl⟩, fun x y s p hp => ?_⟩
  have hexec : exec p.1 s = .next (s.setLogicResult x p.2) := by
    simp only [List.mem_cons, List.not_mem_nil, or_false] at hp
    rcases hp with rfl | rfl | rfl <;> rfl
  exact ⟨s.setLogicResult x p.2, hexec, s.setLogicResult_spec x p.2⟩

/-- Settles O28: halving and doubling the source the statement names, with the bit moved out as the flag. -/
theorem shiftsMoveOneBitOut : Obligations.ShiftsMoveOneBitOut := by
  unfold Obligations.ShiftsMoveOneBitOut
  refine ⟨fun v w => ⟨fun h => decode_8XYN (n := 0x6) h rfl rfl, fun h => decode_8XYN (n := 0xE) h rfl rfl⟩,
    fun x y s => ?_⟩
  rw [← shiftSource_eq s x y]
  exact ⟨⟨_, rfl, s.setRegThenFlag_toNat_spec x (byte_shiftRight_one_toNat _) (shiftedOutRight_toNat _)⟩,
    ⟨_, rfl, s.setRegThenFlag_toNat_spec x (byte_shiftLeft_one_toNat _) (shiftedOutLeft_toNat _)⟩⟩

/-- Settles O24: each of the three meanings writes one register. -/
theorem loadsAndImmediateAdd : Obligations.LoadsAndImmediateAdd := by
  unfold Obligations.LoadsAndImmediateAdd
  refine ⟨fun v w => ⟨fun h => decode_6 (mask_F000_eq.mp h), fun h => decode_7 (mask_F000_eq.mp h),
    fun h => decode_8XYN (n := 0x0) h rfl rfl⟩, fun x y nn s => ⟨?_, ?_, ?_⟩⟩
  · exact ⟨_, rfl, s.reg_setReg_same x nn, onlyRegsChange_setReg s x nn⟩
  · refine ⟨_, rfl, ?_, onlyRegsChange_setReg s x _⟩
    rw [State.reg_setReg_same, BitVec.toNat_add]
  · exact ⟨_, rfl, s.reg_setReg_same x _, onlyRegsChange_setReg s x _⟩

/-- Settles O26: the sum modulo 256, then the carry. -/
theorem addSetsCarry : Obligations.AddSetsCarry := by
  unfold Obligations.AddSetsCarry
  refine ⟨fun v w h => decode_8XYN (n := 0x4) h rfl rfl, fun x y s => ⟨_, rfl, ?_⟩⟩
  rw [← carryFlag_eq]
  exact s.setRegThenFlag_spec x (BitVec.toNat_add _ _)

/-- Settles O27: the difference modulo 256, then NOT-borrow, in either order of the operands. -/
theorem subtractionsSetNotBorrow : Obligations.SubtractionsSetNotBorrow := by
  unfold Obligations.SubtractionsSetNotBorrow
  refine ⟨fun v w => ⟨fun h => decode_8XYN (n := 0x5) h rfl rfl, fun h => decode_8XYN (n := 0x7) h rfl rfl⟩,
    fun x y s => ?_⟩
  rw [← notBorrowFlag_eq, ← notBorrowFlag_eq]
  exact ⟨⟨_, rfl, s.setRegThenFlag_spec x (byte_sub_toNat _ _)⟩,
    ⟨_, rfl, s.setRegThenFlag_spec x (byte_sub_toNat _ _)⟩⟩

/-- Settles O29: the meaning writes the masked free value to one register and counts the draw. -/
theorem randomIsMaskedByTheImmediate : Obligations.RandomIsMaskedByTheImmediate := by
  unfold Obligations.RandomIsMaskedByTheImmediate
  intro x nn s
  obtain ⟨hregs, hmem, -⟩ := onlyRegsChange_setReg s x (Config.freeRnd s.draws &&& nn)
  have hread := s.reg_setReg_same x (Config.freeRnd s.draws &&& nn)
  refine ⟨_, rfl, hread, ?_, rfl, hregs, hmem, rfl⟩
  calc _ = Config.freeRnd s.draws &&& nn &&& ~~~nn := congrArg (· &&& ~~~nn) hread
    _ = 0 := byte_and_and_not_self _ _

end Sys2Proof.Machine
end

section
/-! SUPPORT. The index register, blocks of memory and the flag file: decoding the rows `FXNN`, what a block of bytes leaves
in memory, and what each block transfer does (R210 to R226). -/

namespace Sys2Proof

/-- A word of the row `FXNN` decodes to the instruction whose encoding has the word's digits. -/
theorem decode_FXNN {v : Variant} {w : Word} {nn : Byte} {i : Instr} (h : w &&& 0xF0FF = 0xF#4 ++ 0#4 ++ nn)
    (henc : encode i = wordXNN 0xF (fieldX w) nn) (hwf : i.wf v = true) : decode v w = i := by
  obtain ⟨hA, hNN⟩ := mask_F0FF_eq.mp h
  exact decode_eq_of_encode_eq (henc.trans (wordXNN_eq_of_digits hA hNN)) hwf

end Sys2Proof

namespace Sys2Proof.Machine

variable {s t : State} {x r : Reg}

/-! ### The index register (R212 to R216) -/

/-- Nothing but `I` changes. -/
def OnlyIndexChanges (s t : State) : Prop := SameRegsBut [] s t ∧ SameMemory s t ∧ t = { s with i := t.i }

theorem onlyIndexChanges_withI (s : State) (i : Word) : OnlyIndexChanges s { s with i := i } :=
  ⟨fun _ _ => rfl, fun _ => rfl, rfl⟩

theorem State.reg_withI (s : State) (i : Word) (r : Reg) : State.reg { s with i := i } r = s.reg r := rfl

theorem index_add_byte_toNat (i : Word) (b : Byte) :
    (i + b.setWidth 16).toNat = (i.toNat + b.toNat) % 65536 := by
  rw [BitVec.toNat_add, BitVec.toNat_setWidth_of_le (by decide)]

/-- The glyph of a byte is that of its low nibble; the address is not reduced (R214, R216). -/
theorem glyphAddr_lowNibble_toNat (base : Addr) {rows : Nat} (hrows : rows ≤ 10) (b : Byte) :
    (glyphAddr base rows (lowNibble b)).toNat = base.toNat + rows * (b.toNat % 16) := by
  rw [glyphAddr_toNat base rows _ hrows, lowNibble_toNat]

theorem execLdHf_chip8 (hv : s.variant = .chip8) : execLdHf x s = .next s :=
  if_neg (by rw [hv, isSuper_chip8]; decide)

theorem execLdHf_super (hv : s.variant ≠ .chip8) :
    execLdHf x s = .next { s with i := glyphAddr s.cfg.hifontBase 10 (lowNibble (s.reg x)) } :=
  if_pos (isSuper_iff.mpr hv)

/-! ### Blocks of bytes in memory (R66, R218, R220) -/

theorem sameMemoryOutside_of_writeBlock {a : Nat} {bytes : List Byte}
    (h : t.mem = Memory.writeBlock s.mem a bytes) : SameMemoryOutside a bytes.length s t :=
  fun c hc => h ▸ Memory.read_writeBlock_outside s.mem a c bytes hc

/-- The three digits of a byte stand one after another, hundreds first. -/
theorem read_writeBlock_bcdDigits (m : Memory) (a : Nat) (b : Byte) :
    (Memory.read (Memory.writeBlock m a (bcdDigits b)) a).toNat = b.toNat / 100 ∧
    (Memory.read (Memory.writeBlock m a (bcdDigits b)) (a + 1)).toNat = b.toNat / 10 % 10 ∧
    (Memory.read (Memory.writeBlock m a (bcdDigits b)) (a + 2)).toNat = b.toNat % 10 := by
  have hread : ∀ k (hk : k < (bcdDigits b).length),
      Memory.read (Memory.writeBlock m a (bcdDigits b)) (a + k) = (bcdDigits b)[k] :=
    fun k hk => Memory.read_writeBlock_inside m a k _ hk (by simp)
  have hdigit : ∀ {n : Nat}, n < 256 → (BitVec.ofNat 8 n).toNat = n := Nat.mod_eq_of_lt
  refine ⟨?_, ?_, ?_⟩
  · exact (congrArg BitVec.toNat (hread 0 (by simp))).trans (hdigit (by omega))
  · exact (congrArg BitVec.toNat (hread 1 (by simp))).trans (hdigit (by omega))
  · exact (congrArg BitVec.toNat (hread 2 (by simp))).trans (hdigit (by omega))

/-- A stored register is read at its place in the block. -/
theorem read_writeBlock_regsUpTo (s : State) (m : Memory) (a : Nat) (hr : r ≤ x) :
    Memory.read (Memory.writeBlock m a (s.regsUpTo x)) (a + r.val) = s.reg r := by
  have hin : r.val < (s.regsUpTo x).length := by simpa using Nat.lt_succ_of_le hr
  have hlen : (s.regsUpTo x).length ≤ 4096 := by rw [regsUpTo_length]; omega
  rw [Memory.read_writeBlock_inside m a r.val _ hin hlen, regsUpTo_getElem]

/-! ### Register blocks to and from memory (R220, R222) -/

/-- Everything that R220 says of `FX55`. -/
theorem exec_storeRegs (x : Reg) (s : State) :
    ∃ t, exec (.storeRegs x) s = .next t ∧
      (∀ r : Reg, r ≤ x → Memory.read t.mem (s.i.toNat + r.val) = s.reg r) ∧
      t.i.toNat = (if s.variant = .chip8 then (s.i.toNat + x.val + 1) % 65536 else s.i.toNat) ∧
      SameMemoryOutside (s.indexAddr 0) (x.val + 1) s t ∧ SameRegsBut [] s t ∧
      t = { s with mem := t.mem, i := t.i } := by
  refine ⟨_, rfl, fun r hr => read_writeBlock_regsUpTo s _ _ hr, indexAfterBlock_toNat s x, ?_, fun _ _ => rfl, rfl⟩
  rw [← regsUpTo_length s x]
  exact sameMemoryOutside_of_writeBlock rfl

/-- Everything that R222 says of `FX65`. -/
theorem exec_loadRegs (x : Reg) (s : State) :
    ∃ t, exec (.loadRegs x) s = .next t ∧
      (∀ r : Reg, r ≤ x → t.reg r = Memory.read s.mem (s.i.toNat + r.val)) ∧
      (∀ r : Reg, x < r → t.reg r = s.reg r) ∧
      t.i.toNat = (if s.variant = .chip8 then (s.i.toNat + x.val + 1) % 65536 else s.i.toNat) ∧
      SameMemory s t ∧ t = { s with v := t.v, i := t.i } := by
  refine ⟨_, rfl, fun r hr => ?_, fun r hr => ?_, indexAfterBlock_toNat s x, fun _ => rfl, rfl⟩
  · rw [State.reg_withI, State.reg_setRegsUpTo, if_pos (Fin.le_def.mp hr), State.indexAddr]
  · rw [State.reg_withI, State.reg_setRegsUpTo, if_neg (Nat.not_le_of_gt hr)]

/-! ### The flag file (R224, R226, decision D9) -/

theorem State.refusesFlagTransfer_eq_false :
    s.refusesFlagTransfer x = false ↔ x.val ≤ 7 ∨ s.cfg.flagsXGt7 = .clamp := by
  rw [← Bool.not_eq_true, State.refusesFlagTransfer_iff, not_and_or, Nat.not_lt]
  cases s.cfg.flagsXGt7 <;> simp

/-- Without their rows both transfers do nothing (R98). -/
theorem exec_flagTransfers_of_not_xochip (hv : s.variant ≠ .xochip) :
    exec (.storeFlags x) s = .next s ∧ exec (.loadFlags x) s = .next s :=
  have hxo : ¬ s.variant.isXo = true := mt isXo_iff.mp hv
  ⟨if_neg hxo, if_neg hxo⟩

theorem exec_flagTransfers_of_refuses (hv : s.variant = .xochip) (h : s.refusesFlagTransfer x = true) :
    exec (.storeFlags x) s = .refused .flagTransferTooLong ∧ exec (.loadFlags x) s = .refused .flagTransferTooLong :=
  have hxo : s.variant.isXo = true := isXo_iff.mpr hv
  ⟨(if_pos hxo).trans (if_pos h), (if_pos hxo).trans (if_pos h)⟩

/-- A transfer that is not refused stores registers 0 to min(X, 7): the flag file has no further byte (R224). -/
theorem exec_storeFlags (hv : s.variant = .xochip) (h : s.refusesFlagTransfer x = false) :
    ∃ t, exec (.storeFlags x) s = .next t ∧
      (∀ r : Fin 8, t.flags[r.val] = if r.val ≤ x.val then s.reg (r.castLE (by decide)) else s.flags[r.val]) ∧
      SameRegsBut [] s t ∧ SameMemory s t ∧ t = { s with flags := t.flags } :=
  ⟨_, (if_pos (isXo_iff.mpr hv)).trans (if_neg (Bool.eq_false_iff.mp h)), fun _ => Vector.getElem_ofFn _,
    fun _ _ => rfl, fun _ => rfl, rfl⟩

/-- A transfer that is not refused loads registers 0 to min(X, 7) (R226). -/
theorem exec_loadFlags (hv : s.variant = .xochip) (h : s.refusesFlagTransfer x = false) :
    ∃ t, exec (.loadFlags x) s = .next t ∧
      (∀ r : Fin 8, r.val ≤ x.val → t.reg (r.castLE (by decide)) = s.flags[r.val]) ∧
      (∀ r : Reg, min x.val 7 < r.val → t.reg r = s.reg r) ∧ SameMemory s t ∧ t = { s with v := t.v } := by
  have hreg := s.reg_setRegsUpTo (min x.val 7) fun r => s.flags[r]?.getD 0
  refine ⟨_, (if_pos (isXo_iff.mpr hv)).trans (if_neg (Bool.eq_false_iff.mp h)), fun r hr => ?_, fun r hr => ?_,
    fun _ => rfl, rfl⟩
  · have hmin : r.val ≤ min x.val 7 := le_min hr (Nat.le_of_lt_succ r.isLt)
    exact (hreg (r.castLE (by decide))).trans ((if_pos hmin).trans (by simp))
  · rw [hreg, if_neg (Nat.not_le_of_gt hr)]

end Sys2Proof.Machine
end

section
/-! PROOFS. The statements of the family 44_index_memory: the register blocks, the flag file, the index register, the glyph
addresses and the decimal digits. -/

namespace Sys2Proof.Machine

/-- Settles O38, from R220's lemma on the block that `FX55` writes. -/
theorem registerBlockIsStored : Obligations.RegisterBlockIsStored := by
  unfold Obligations.RegisterBlockIsStored
  exact ⟨fun v w h => decode_FXNN (nn := 0x55) h rfl rfl, exec_storeRegs⟩

/-- Settles O39, from R222's lemma on the registers that `FX65` replaces. -/
theorem registerBlockIsLoaded : Obligations.RegisterBlockIsLoaded := by
  unfold Obligations.RegisterBlockIsLoaded
  exact ⟨fun v w h => decode_FXNN (nn := 0x65) h rfl rfl, exec_loadRegs⟩

/-- Settles O40: the load reads each register where the store put it. -/
theorem storeThenLoadRestoresRegisters : Obligations.StoreThenLoadRestoresRegisters := by
  unfold Obligations.StoreThenLoadRestoresRegisters
  intro x s
  obtain ⟨t, ht, hstored, -⟩ := exec_storeRegs x s
  refine ⟨t, ht, fun u hmem hi => ?_⟩
  obtain ⟨z, hz, hloaded, hkept, -⟩ := exec_loadRegs x u
  exact ⟨z, hz, fun r hr => by rw [hloaded r hr, hmem, hi, hstored r hr], hkept⟩

/-- Settles O41: without the rows nothing happens; with them a transfer is refused where X > 7 and the parameter says so,
and completes otherwise. -/
theorem flagFileTransfers : Obligations.FlagFileTransfers := by
  unfold Obligations.FlagFileTransfers
  refine fun x s => ⟨exec_flagTransfers_of_not_xochip, fun hv hallowed => ?_, fun hv hlong hrefuse => ?_⟩
  · have hcompletes := State.refusesFlagTransfer_eq_false.mpr hallowed
    exact ⟨exec_storeFlags hv hcompletes, exec_loadFlags hv hcompletes⟩
  · exact exec_flagTransfers_of_refuses hv (State.refusesFlagTransfer_iff.mpr ⟨hlong, hrefuse⟩)

/-- Settles O34: the address is zero-extended into `I`. -/
theorem indexLoad : Obligations.IndexLoad := by
  unfold Obligations.IndexLoad
  exact ⟨fun v w h => decode_A (mask_F000_eq.mp h),
    fun nnn s => ⟨_, rfl, Addr.setWidth_toNat nnn, onlyIndexChanges_withI s _⟩⟩

/-- Settles O35: the sum is one of 16-bit words. -/
theorem indexAddWrapsAtSixteenBits : Obligations.IndexAddWrapsAtSixteenBits := by
  unfold Obligations.IndexAddWrapsAtSixteenBits
  exact fun x s => ⟨_, rfl, index_add_byte_toNat s.i (s.reg x), onlyIndexChanges_withI s _⟩

/-- Settles O36: glyphs of 5 and of 10 rows, the latter only where the variant has the row. -/
theorem glyphAddresses : Obligations.GlyphAddresses := by
  unfold Obligations.GlyphAddresses
  refine ⟨fun v w => ⟨fun h => decode_FXNN (nn := 0x29) h rfl rfl, decode_FX30 v⟩, fun x s => ⟨?_, fun hv => ?_, ?_⟩⟩
  · exact ⟨_, rfl, glyphAddr_lowNibble_toNat _ (by decide) _, onlyIndexChanges_withI s _⟩
  · exact ⟨_, execLdHf_super hv, glyphAddr_lowNibble_toNat _ (by decide) _, onlyIndexChanges_withI s _⟩
  · exact execLdHf_chip8

/-- Settles O37: the three digits are one block at `I`. -/
theorem decimalDigitsAreStored : Obligations.DecimalDigitsAreStored := by
  unfold Obligations.DecimalDigitsAreStored
  refine ⟨fun v w h => decode_FXNN (nn := 0x33) h rfl rfl, fun x s => ?_⟩
  obtain ⟨hhundreds, htens, hones⟩ := read_writeBlock_bcdDigits s.mem (s.indexAddr 0) (s.reg x)
  refine ⟨_, rfl, hhundreds, htens, hones, ?_, fun _ _ => rfl, rfl⟩
  rw [← bcdDigits_length (s.reg x)]
  exact sameMemoryOutside_of_writeBlock rfl

end Sys2Proof.Machine
end

section
/-! SUPPORT. The state after a draw: its display cell by cell, its `VF`, and what a draw depends on (R230 to R240). -/

namespace Sys2Proof.Machine

/-- The state after `DXYN`. -/
def State.afterDraw (s : State) (x y : Reg) (n : Nibble) : State :=
  { s with disp := (compose s.disp (s.drawCells x y n)).1, displayed := true }.setFlag
    (flagByte (compose s.disp (s.drawCells x y n)).2)

theorem exec_drw (x y : Reg) (n : Nibble) (s : State) : exec (.drw x y n) s = .next (s.afterDraw x y n) := rfl

variable {s u : State} {x y : Reg} {n : Nibble} {cy cx : Nat}

theorem State.afterDraw_disp : (s.afterDraw x y n).disp = (compose s.disp (s.drawCells x y n)).1 := rfl

@[simp] theorem State.afterDraw_vf :
    (s.afterDraw x y n).reg 15 = flagByte (compose s.disp (s.drawCells x y n)).2 := by
  rw [State.afterDraw, State.reg_setFlag, if_pos rfl]

theorem State.reg_afterDraw_other {r : Reg} (h : r ≠ 15) : (s.afterDraw x y n).reg r = s.reg r := by
  rw [State.afterDraw, State.reg_setFlag, if_neg h]
  rfl

/-! ### Cells and collision (R234, R235) -/

theorem get_afterDraw_of_covered (h : Covered s x y n cy cx) :
    Display.get (s.afterDraw x y n).disp cy cx = !Display.get s.disp cy cx := by
  rw [State.afterDraw_disp, (compose_spec _ _ State.drawCells_nodup drawCells_inside).1,
    if_pos (State.mem_drawCells_iff_covered.mpr h)]

theorem get_afterDraw_of_not_covered (h : ¬ Covered s x y n cy cx) :
    Display.get (s.afterDraw x y n).disp cy cx = Display.get s.disp cy cx := by
  rw [State.afterDraw_disp, (compose_spec _ _ State.drawCells_nodup drawCells_inside).1,
    if_neg (mt State.mem_drawCells_iff_covered.mp h)]

theorem afterDraw_vf_eq_one_iff :
    (s.afterDraw x y n).reg 15 = 1 ↔ ∃ cy cx, Covered s x y n cy cx ∧ Display.get s.disp cy cx = true := by
  rw [State.afterDraw_vf, flagByte_eq_one, (compose_spec _ _ State.drawCells_nodup drawCells_inside).2, Prod.exists]
  simp only [State.mem_drawCells_iff_covered]

/-- Every covered cell lies in the active window (R239). -/
theorem Covered.in_window (h : Covered s x y n cy cx) : cy < s.height ∧ cx < s.width :=
  State.drawCells_window (State.mem_drawCells_iff_covered.mpr h)

/-! ### Zero rows (R231, decision D24) -/

theorem State.drawCells_of_chip8_zero (hv : s.variant = .chip8) : s.drawCells x y 0 = [] := by
  have hbig : s.bigSprite 0 = false := by rw [State.bigSprite, hv, isSuper_chip8, Bool.and_false]
  have hrows : s.spriteRows 0 = 0 := by rw [State.spriteRows, hbig]; rfl
  rw [State.drawCells, hrows]
  rfl

theorem afterDraw_of_chip8_zero (hv : s.variant = .chip8) :
    (s.afterDraw x y 0).disp = s.disp ∧ (s.afterDraw x y 0).reg 15 = 0 := by
  rw [State.afterDraw_disp, State.afterDraw_vf, State.drawCells_of_chip8_zero hv]
  exact ⟨rfl, rfl⟩

/-! ### The second draw (R240) -/

theorem covered_congr (hcells : u.drawCells x y n = s.drawCells x y n) :
    Covered u x y n cy cx ↔ Covered s x y n cy cx := by
  rw [← State.mem_drawCells_iff_covered, hcells, State.mem_drawCells_iff_covered]

/-- A draw over the same cells, on the display that the first draw left, puts every cell back. -/
theorem afterDraw_afterDraw_disp (hcells : u.drawCells x y n = s.drawCells x y n)
    (hdisp : u.disp = (s.afterDraw x y n).disp) : (u.afterDraw x y n).disp = s.disp := by
  refine Display.ext fun cy cx _ _ => ?_
  by_cases h : Covered s x y n cy cx
  · rw [get_afterDraw_of_covered ((covered_congr hcells).mpr h), hdisp, get_afterDraw_of_covered h, Bool.not_not]
  · rw [get_afterDraw_of_not_covered (mt (covered_congr hcells).mp h), hdisp, get_afterDraw_of_not_covered h]

/-- The second draw hits a lit cell exactly where the first draw lit one. -/
theorem afterDraw_afterDraw_vf (hcells : u.drawCells x y n = s.drawCells x y n)
    (hdisp : u.disp = (s.afterDraw x y n).disp) :
    (u.afterDraw x y n).reg 15 = 1 ↔ ∃ cy cx, Covered s x y n cy cx ∧ Display.get s.disp cy cx = false := by
  rw [afterDraw_vf_eq_one_iff]
  refine exists_congr fun cy => exists_congr fun cx => ?_
  rw [covered_congr hcells, hdisp]
  exact and_congr_right fun h => by rw [get_afterDraw_of_covered h, Bool.not_eq_true']

end Sys2Proof.Machine
end

section
/-! PROOFS. The statements of the family 45_draw: completion and frame, the toggled cells, and drawing twice. -/

namespace Sys2Proof.Machine

/-- Settles O42: the state after a draw, whose `VF` is a flag byte; zero rows toggle no cell. -/
theorem drawCompletesAndKeepsItsFrame : Obligations.DrawCompletesAndKeepsItsFrame := by
  unfold Obligations.DrawCompletesAndKeepsItsFrame
  intro x y n s
  refine ⟨s.afterDraw x y n, exec_drw x y n s, rfl, ?_, ?_, fun r hr => ?_, fun _ => rfl, rfl⟩
  · rw [State.afterDraw_vf]
    exact flagByte_zero_or_one _
  · rintro hv rfl
    exact afterDraw_of_chip8_zero hv
  · exact State.reg_afterDraw_other (List.ne_of_not_mem_cons hr)

/-- Settles O43: the compositor's cells are the covered ones, each toggled once. -/
theorem drawTogglesTheCoveredCells : Obligations.DrawTogglesTheCoveredCells := by
  unfold Obligations.DrawTogglesTheCoveredCells
  exact fun x y n s => ⟨s.afterDraw x y n, exec_drw x y n s,
    fun _ _ _ _ => ⟨get_afterDraw_of_covered, get_afterDraw_of_not_covered⟩,
    fun _ _ => Covered.in_window, afterDraw_vf_eq_one_iff⟩

/-- Settles O44: what may not change between the draws fixes the cells, and toggling them again undoes the first. -/
theorem drawingTwiceRestoresTheDisplay : Obligations.DrawingTwiceRestoresTheDisplay := by
  unfold Obligations.DrawingTwiceRestoresTheDisplay
  refine fun x y n s => ⟨s.afterDraw x y n, exec_drw x y n s, fun u hdisp hhires hvariant hcfg hmem hi hx hy => ?_⟩
  have hcells : u.drawCells x y n = s.drawCells x y n := drawCells_congr n hhires hvariant hcfg hmem hi hx hy
  exact ⟨u.afterDraw x y n, exec_drw x y n u, afterDraw_afterDraw_disp hcells hdisp,
    afterDraw_afterDraw_vf hcells hdisp⟩

end Sys2Proof.Machine
end

section
/-! SUPPORT. The keypad: what KEY leaves, the three transitions of `FX0A` as an instruction and as a step, and the wait
from a press to the release (R250 to R262). -/

namespace Sys2Proof.Machine

variable {s : State} {x : Reg} {k : KeyIndex}

/-! ### KEY (R250, R251) -/

theorem setKey_of_lt {index : Nat} (h : index < 16) (pressed : Bool) (s : State) :
    setKey index pressed s = .next { s with key := s.key.set index pressed } :=
  dif_pos h

theorem setKey_of_ge {index : Nat} (h : 16 ≤ index) (pressed : Bool) (s : State) :
    setKey index pressed s = .refused .keyIndexOutOfRange :=
  dif_neg (Nat.not_lt_of_ge h)

/-- One live key replaced, by a key index. -/
def State.withKey (s : State) (k : KeyIndex) (pressed : Bool) : State := { s with key := s.key.set k.val pressed }

theorem perform_key (k : KeyIndex) (pressed : Bool) (s : State) :
    (Op.key k.val pressed).perform s = .next (s.withKey k pressed) :=
  setKey_of_lt k.isLt pressed s

/-- A key pressed on a keypad with no key down is the least one down. -/
theorem leastKeyDown_set_of_all_up {keys : Vector Bool 16} (hup : ∀ j : KeyIndex, keys[j.val] = false) (k : KeyIndex) :
    leastKeyDown (keys.set k.val true) = some k := by
  refine leastKeyDown_some.mpr ⟨Vector.getElem_set_self _, fun j hj => ?_⟩
  have hne : k.val ≠ j.val := (Fin.val_ne_of_ne hj.ne).symm
  rw [Vector.getElem_set_ne _ _ hne]
  exact hup j

/-! ### The transitions of `FX0A` (R258, decision D19) -/

theorem State.hexKey_toNat (s : State) (k : KeyIndex) : (s.hexKey k).toNat = (s.cfg.keymap[k.val]).toNat :=
  BitVec.toNat_setWidth_of_le (by decide)

/-- What R258 says of the write that completes the wait. -/
theorem setReg_hexKey_spec (s : State) (x : Reg) (k : KeyIndex) :
    ((s.setReg x (s.hexKey k)).reg x).toNat = (s.cfg.keymap[k.val]).toNat ∧
    SameRegsBut [x] s (s.setReg x (s.hexKey k)) ∧ SameMemory s (s.setReg x (s.hexKey k)) := by
  obtain ⟨hregs, hmem, -⟩ := onlyRegsChange_setReg s x (s.hexKey k)
  exact ⟨by rw [State.reg_setReg_same, State.hexKey_toNat], hregs, hmem⟩

/-- Idle: the least key of the snapshot, if any, is latched. -/
theorem execLdVxK_of_idle (h : s.latch = none) :
    execLdVxK x s = .next { s.repeatInstr with latch := leastKeyDown s.keyPrev } := by
  simp only [execLdVxK, h]

/-- Latched, at the release edge: the key's hex value is stored. -/
theorem execLdVxK_of_released (h : s.latch = some k) (hedge : s.keyPrev[k.val] = true ∧ s.key[k.val] = false) :
    execLdVxK x s = .next { s.setReg x (s.hexKey k) with latch := none } := by
  simp only [execLdVxK, h, hedge, Bool.not_false, Bool.and_self, if_true]

/-- Latched, at no release edge: the instruction repeats. -/
theorem execLdVxK_of_held (h : s.latch = some k) (hno : ¬ (s.keyPrev[k.val] = true ∧ s.key[k.val] = false)) :
    execLdVxK x s = .next s.repeatInstr := by
  simp only [execLdVxK, h, Bool.and_eq_true, Bool.not_eq_true', if_neg hno]

/-! ### A step on `FX0A` (R120, R258, R262) -/

/-- What a waiting step leaves, with the given latch: `pc` is only bounded, since the repeat takes the advance back. -/
def State.afterWait (s : State) (latch : Option KeyIndex) : State :=
  { s with pc := boundPc s.pc, latch := latch, displayed := false, keyPrev := s.key }

/-- What the completing step leaves: `V[X]` holds the key's hex value and `pc` has advanced. -/
def State.afterRelease (s : State) (x : Reg) (k : KeyIndex) : State :=
  { s.setReg x (s.hexKey k) with pc := boundPc s.pc + 2, latch := none, displayed := false, keyPrev := s.key }

/-- The repeat takes back the advance of phase 4. -/
theorem repeatInstr_beginStep (s : State) :
    s.beginStep.repeatInstr = { s with pc := boundPc s.pc, displayed := false } := by
  have hpc : boundPc s.pc + 2 - 2 = boundPc s.pc := BitVec.add_sub_cancel _ _
  rw [State.repeatInstr, State.beginStep_pc, hpc]
  rfl

theorem step_ldVxK {u : State} (hi : s.nextInstr = .ldVxK x) (h : execLdVxK x s.beginStep = .next u) :
    step s = .next u.endStep := by
  rw [step_eq, hi]
  exact Outcome.andThen_eq_next.mpr ⟨u, h, rfl⟩

theorem step_ldVxK_of_idle (hi : s.nextInstr = .ldVxK x) (h : s.latch = none) :
    step s = .next (s.afterWait (leastKeyDown s.keyPrev)) := by
  rw [step_ldVxK hi (execLdVxK_of_idle h), repeatInstr_beginStep]
  rfl

theorem step_ldVxK_of_held (hi : s.nextInstr = .ldVxK x) (h : s.latch = some k)
    (hno : ¬ (s.keyPrev[k.val] = true ∧ s.key[k.val] = false)) : step s = .next (s.afterWait (some k)) := by
  rw [step_ldVxK hi (execLdVxK_of_held h hno), repeatInstr_beginStep, State.afterWait, ← h]
  rfl

theorem step_ldVxK_of_released (hi : s.nextInstr = .ldVxK x) (h : s.latch = some k)
    (hedge : s.keyPrev[k.val] = true ∧ s.key[k.val] = false) : step s = .next (s.afterRelease x k) :=
  step_ldVxK hi (execLdVxK_of_released h hedge)

/-! ### The wait (R259, R261) -/

/-- A waiting step fetches the same instruction again. -/
theorem State.nextInstr_afterWait (s : State) (latch : Option KeyIndex) :
    (s.afterWait latch).nextInstr = s.nextInstr := by
  simp only [State.nextInstr, State.fetchWord, State.afterWait, boundPc_boundPc]

@[simp] theorem State.afterWait_keyPrev (s : State) (latch : Option KeyIndex) :
    (s.afterWait latch).keyPrev = s.key := rfl

theorem State.afterWait_afterWait (s : State) (l m : Option KeyIndex) :
    (s.afterWait l).afterWait m = s.afterWait m := by
  simp only [State.afterWait, boundPc_boundPc]

/-- While the latched key stays down, waiting steps change nothing more. -/
theorem step_afterWait_of_down (hi : s.nextInstr = .ldVxK x) (hdown : s.key[k.val] = true) :
    step (s.afterWait (some k)) = .next (s.afterWait (some k)) := by
  have hno : ¬ ((s.afterWait (some k)).keyPrev[k.val] = true ∧ (s.afterWait (some k)).key[k.val] = false) :=
    fun hedge => Bool.eq_false_iff.mp hedge.2 hdown
  rw [step_ldVxK_of_held ((s.nextInstr_afterWait _).trans hi) rfl hno, State.afterWait_afterWait]

/-- From an idle state with an empty snapshot and one key down, the first step takes the snapshot, the second latches
the key, and every further one waits. -/
theorem runOps_keyWait (hi : s.nextInstr = .ldVxK x) (hidle : s.latch = none) (hnone : leastKeyDown s.keyPrev = none)
    (hleast : leastKeyDown s.key = some k) (m : Nat) (rest : List Op) :
    runOps (List.replicate (m + 2) .step ++ rest) s = runOps rest (s.afterWait (some k)) := by
  have hdown : s.key[k.val] = true := (leastKeyDown_some.mp hleast).1
  have hfirst : step s = .next (s.afterWait none) := by rw [step_ldVxK_of_idle hi hidle, hnone]
  have hsecond : step (s.afterWait none) = .next (s.afterWait (some k)) := by
    rw [step_ldVxK_of_idle ((s.nextInstr_afterWait _).trans hi) rfl, State.afterWait_keyPrev, hleast,
      State.afterWait_afterWait]
  rw [List.replicate_succ, List.replicate_succ, List.cons_append, List.cons_append,
    runOps_cons (op := .step) hfirst, runOps_cons (op := .step) hsecond,
    runOps_replicate_step (step_afterWait_of_down hi hdown)]

/-- The release of the latched key and one step end the wait. -/
theorem runOps_keyRelease (hi : s.nextInstr = .ldVxK x) (hdown : s.key[k.val] = true) :
    runOps [.key k.val false, .step] (s.afterWait (some k)) =
      .next (((s.afterWait (some k)).withKey k false).afterRelease x k) := by
  have hfetch : ((s.afterWait (some k)).withKey k false).nextInstr = .ldVxK x :=
    (s.nextInstr_afterWait (some k)).trans hi
  have hup : ((s.afterWait (some k)).withKey k false).key[k.val] = false := Vector.getElem_set_self k.isLt
  rw [runOps_cons (perform_key k false _), runOps_cons (op := .step) (step_ldVxK_of_released hfetch rfl ⟨hdown, hup⟩)]
  rfl

end Sys2Proof.Machine
end

section
/-! PROOFS. The statements of the family 46_keypad: the key skips, the transitions of `FX0A`, its waiting step, its wait
from the press to the release, and KEY. -/

namespace Sys2Proof.Machine

/-- Settles O49: a legal key table names one key, and the two skips have opposite tests of it. -/
theorem keySkipsTestTheNamedKey : Obligations.KeySkipsTestTheNamedKey := by
  unfold Obligations.KeySkipsTestTheNamedKey
  intro x s j hlegal hj
  have hkey : s.key[(s.namedKey x).val] = s.key[j.val] := by simp only [namedKey_eq hlegal hj]
  have hup : (!s.key[(s.namedKey x).val]) = true ↔ ¬ s.key[j.val] = true := by
    rw [hkey, Bool.not_eq_true', Bool.not_eq_true]
  obtain ⟨hpc, hframe⟩ := s.skipIf_spec hup
  exact ⟨⟨_, rfl, s.skipIf_spec (Bool.eq_iff_iff.mp hkey)⟩, ⟨_, rfl, hpc.trans (ite_not _ _ _), hframe⟩⟩

/-- Settles O50: idle, released and held, each by the lemma on its transition. -/
theorem keyWaitIsATwoStateMachine : Obligations.KeyWaitIsATwoStateMachine := by
  unfold Obligations.KeyWaitIsATwoStateMachine
  refine fun x s => ⟨fun hidle => ?_, fun k hlatch => ⟨fun hedge => ?_, fun hno => ?_⟩⟩
  · exact ⟨_, execLdVxK_of_idle hidle, rfl, fun _ => leastKeyDown_some, fun _ _ => rfl, fun _ => rfl, rfl⟩
  · obtain ⟨hvalue, hregs, hmem⟩ := setReg_hexKey_spec s x k
    exact ⟨_, execLdVxK_of_released hlatch hedge, hvalue, rfl, rfl, hregs, hmem, rfl⟩
  · exact ⟨_, execLdVxK_of_held hlatch hno, rfl, onlyPcChanges_withPc s _⟩

/-- Settles O51: a step that does not complete is idle or holds its latch, and both leave the state after a wait. -/
theorem waitingStepKeepsTheState : Obligations.WaitingStepKeepsTheState := by
  unfold Obligations.WaitingStepKeepsTheState
  intro s x hi hwaits
  rw [← boundPc_eq]
  cases hlatch : s.latch with
  | none => exact ⟨_, step_ldVxK_of_idle hi hlatch, rfl⟩
  | some k => exact ⟨_, step_ldVxK_of_held hi hlatch (hwaits k hlatch), rfl⟩

/-- Settles O52: the pressed key is the only one down, so the wait latches it, and its release completes. -/
theorem pressAndReleaseEndTheWait : Obligations.PressAndReleaseEndTheWait := by
  unfold Obligations.PressAndReleaseEndTheWait
  intro s x k m hi hidle hkey hprev
  rw [← boundPc_eq]
  have hfetch : (s.withKey k true).nextInstr = .ldVxK x := hi
  have hleast : leastKeyDown (s.withKey k true).key = some k := leastKeyDown_set_of_all_up hkey k
  have hdown : (s.withKey k true).key[k.val] = true := (leastKeyDown_some.mp hleast).1
  have hrun : runOps (.key k.val true :: List.replicate (m + 2) .step ++ [.key k.val false, .step]) s =
      .next ((((s.withKey k true).afterWait (some k)).withKey k false).afterRelease x k) := by
    rw [List.cons_append, runOps_cons (perform_key k true s),
      runOps_keyWait hfetch hidle (leastKeyDown_none.mpr hprev) hleast, runOps_keyRelease hfetch hdown]
  obtain ⟨hvalue, hregs, hmem⟩ := setReg_hexKey_spec (((s.withKey k true).afterWait (some k)).withKey k false) x k
  exact ⟨_, hrun, hvalue, rfl, congrArg (· + 2) (boundPc_boundPc s.pc), hregs, hmem⟩

/-- Settles O56: the vector of live keys after one write, on a state that TICK may have changed. -/
theorem keyWritesOneLiveKey : Obligations.KeyWritesOneLiveKey := by
  unfold Obligations.KeyWritesOneLiveKey
  refine fun s index pressed => ⟨fun h => ?_, fun h => setKey_of_ge h pressed s⟩
  exact ⟨_, setKey_of_lt h pressed s, Vector.getElem_set_self h,
    fun j hj => Vector.getElem_set_ne h j.isLt hj.symm, rfl, setKey_of_lt h pressed s.tick⟩

end Sys2Proof.Machine
end

section
/-! SUPPORT. The countdown of one tick and of many (R296, R297), and the size of the active window (R31). -/

namespace Sys2Proof.Machine

theorem State.tick_dt_toNat (s : State) : s.tick.dt.toNat = s.dt.toNat - 1 := timerDown_toNat s.dt

theorem State.tick_st_toNat (s : State) : s.tick.st.toNat = s.st.toNat - 1 := timerDown_toNat s.st

/-- The first tick takes one off each timer, and the others take `n` off what it leaves. -/
theorem State.ticks_toNat (s : State) (n : Nat) :
    (s.ticks n).dt.toNat = s.dt.toNat - n ∧ (s.ticks n).st.toNat = s.st.toNat - n := by
  induction n generalizing s with
  | zero => exact ⟨rfl, rfl⟩
  | succ n ih =>
    obtain ⟨hdt, hst⟩ := ih s.tick
    rw [State.tick_dt_toNat, Nat.sub_sub, Nat.add_comm] at hdt
    rw [State.tick_st_toNat, Nat.sub_sub, Nat.add_comm] at hst
    exact ⟨hdt, hst⟩

theorem State.height_mul_width (s : State) :
    s.height * s.width = if s.hires = true then 128 * 64 else 64 * 32 := by
  unfold State.height State.width
  cases s.hires <;> rfl

end Sys2Proof.Machine
end

section
/-! PROOFS. The statements of the families 47_timers and 60_exceptions: the timer instructions, one tick, many ticks, and
the display output. -/

namespace Sys2Proof.Machine

/-- Settles O55, by induction on the number of ticks. -/
theorem ticksReachZeroAndStop : Obligations.TicksReachZeroAndStop := by
  unfold Obligations.TicksReachZeroAndStop
  exact State.ticks_toNat

/-- Settles O60: `H` rows of `W` values each, one after another. -/
theorem displayOutputIsTheWindowRowByRow : Obligations.DisplayOutputIsTheWindowRowByRow := by
  unfold Obligations.DisplayOutputIsTheWindowRowByRow
  intro s
  obtain ⟨hlength, hcells⟩ := rows_getElem? s.height s.width (Display.get s.disp)
  exact ⟨hlength.trans s.height_mul_width, hcells⟩

/-- Settles O54: the countdown of each timer; TICK writes only these two fields. -/
theorem tickCountsBothTimersDown : Obligations.TickCountsBothTimersDown := by
  unfold Obligations.TickCountsBothTimersDown
  exact fun s => ⟨s.tick_dt_toNat, s.tick_st_toNat, rfl⟩

/-- Settles O53: each word by its fixed digits, and each meaning as the write of one register or one timer. -/
theorem timerInstructions : Obligations.TimerInstructions := by
  unfold Obligations.TimerInstructions
  refine ⟨fun v w => ⟨fun h => decode_FXNN (nn := 0x07) h rfl rfl, fun h => decode_FXNN (nn := 0x15) h rfl rfl,
    fun h => decode_FXNN (nn := 0x18) h rfl rfl⟩, fun x s => ⟨?_, ?_, ?_⟩⟩
  · exact ⟨_, rfl, s.reg_setReg_same x s.dt, onlyRegsChange_setReg s x s.dt⟩
  · exact ⟨{ s with dt := s.reg x }, rfl, rfl, fun _ _ => rfl, fun _ => rfl, rfl⟩
  · exact ⟨{ s with st := s.reg x }, rfl, rfl, fun _ _ => rfl, fun _ => rfl, rfl⟩

end Sys2Proof.Machine
end

section
/-! SUPPORT. Loading: when LOAD_ROM places a program, and which table LOAD_FONT leaves at each address (R322 to R325). -/

namespace Sys2Proof.Machine

variable {s : State} {bytes : List Byte} {a : Nat}

/-! ### LOAD_ROM (R324, R325) -/

theorem loadRom_of_fits (h : bytes.length ≤ 3584) : loadRom bytes s = .next (s.placeRom bytes) := if_pos h

theorem loadRom_of_reject (h : 3584 < bytes.length) (hp : s.cfg.romTooLarge = .reject) :
    loadRom bytes s = .refused .romTooLarge := by
  have hlong : ¬ bytes.length ≤ romMax := Nat.not_le_of_gt h
  rw [loadRom, if_neg hlong, hp]

theorem loadRom_of_truncate (h : 3584 < bytes.length) (hp : s.cfg.romTooLarge = .truncate) :
    loadRom bytes s = .next (s.placeRom (bytes.take 3584)) := by
  have hlong : ¬ bytes.length ≤ romMax := Nat.not_le_of_gt h
  rw [loadRom, if_neg hlong, hp]
  rfl

/-- A program that fits is read back byte by byte. -/
theorem read_placeRom (s : State) (hlen : bytes.length ≤ 3584) {k : Nat} (hk : k < bytes.length) :
    Memory.read (s.placeRom bytes).mem (0x200 + k) = bytes[k] :=
  Memory.read_writeBlock_inside s.mem 0x200 k bytes hk (hlen.trans (by decide))

/-! ### Tables of bytes in memory -/

/-- A table of at most 4096 bytes is read back entry by entry. -/
theorem Memory.read_writeBlock_table {n : Nat} (m : Memory) (base : Nat) (table : Vector Byte n) (hn : n ≤ 4096)
    (k : Fin n) : Memory.read (Memory.writeBlock m base table.toList) (base + k.val) = table[k.val] := by
  have hlen : table.toList.length = n := table.length_toList
  rw [Memory.read_writeBlock_inside m base k.val table.toList (by rw [hlen]; exact k.isLt) (by rwa [hlen]),
    Vector.getElem_toList]

/-- A table leaves every byte outside it. -/
theorem Memory.read_writeBlock_table_outside {n : Nat} (m : Memory) (base : Nat) (table : Vector Byte n)
    (h : ∀ k : Fin n, a % 4096 ≠ (base + k.val) % 4096) :
    Memory.read (Memory.writeBlock m base table.toList) a = Memory.read m a :=
  Memory.read_writeBlock_outside m base a table.toList fun k hk => h ⟨k, table.length_toList ▸ hk⟩

/-! ### LOAD_FONT (R322) -/

/-- Memory after LOAD_FONT has written LOWFONT, which every variant has. -/
def State.lowfontMem (s : State) : Memory :=
  Memory.writeBlock s.mem s.cfg.lowfontBase.toNat s.cfg.lowfont.toList

/-- The bytes that LOAD_FONT writes over LOWFONT's, where the variant has them. -/
def State.hifontTable (s : State) : Vector Byte 160 := s.cfg.hifont.getD Config.freeHifont

/-- The address is outside every byte of HIFONT, or the variant has no HIFONT. -/
def State.HifontLeaves (s : State) (a : Nat) : Prop :=
  s.variant = .chip8 ∨ ∀ j : Fin 160, a % 4096 ≠ (s.cfg.hifontBase.toNat + j.val) % 4096

theorem loadFont_mem_chip8 (hv : s.variant = .chip8) : (loadFont s).mem = s.lowfontMem := by
  rw [loadFont_mem, if_neg (mt isSuper_iff.mp (not_not_intro hv))]
  rfl

theorem loadFont_mem_super (hv : s.variant ≠ .chip8) :
    (loadFont s).mem = Memory.writeBlock s.lowfontMem s.cfg.hifontBase.toNat s.hifontTable.toList := by
  rw [loadFont_mem, if_pos (isSuper_iff.mpr hv)]
  rfl

/-- HIFONT is written last, so its bytes stand whatever LOWFONT's addresses are. -/
theorem read_loadFont_hifont (hv : s.variant ≠ .chip8) (k : Fin 160) :
    Memory.read (loadFont s).mem (s.cfg.hifontBase.toNat + k.val) = s.hifontTable[k.val] := by
  rw [loadFont_mem_super hv, Memory.read_writeBlock_table _ _ _ (by decide)]

theorem read_loadFont_of_hifontLeaves (h : s.HifontLeaves a) :
    Memory.read (loadFont s).mem a = Memory.read s.lowfontMem a := by
  by_cases hv : s.variant = .chip8
  · rw [loadFont_mem_chip8 hv]
  · rw [loadFont_mem_super hv, Memory.read_writeBlock_table_outside _ _ _ (h.resolve_left hv)]

theorem read_loadFont_lowfont (k : Fin 80) (h : s.HifontLeaves (s.cfg.lowfontBase.toNat + k.val)) :
    Memory.read (loadFont s).mem (s.cfg.lowfontBase.toNat + k.val) = s.cfg.lowfont[k.val] := by
  rw [read_loadFont_of_hifontLeaves h, State.lowfontMem, Memory.read_writeBlock_table _ _ _ (by decide)]

theorem read_loadFont_outside (hlow : ∀ k : Fin 80, a % 4096 ≠ (s.cfg.lowfontBase.toNat + k.val) % 4096)
    (hhigh : s.HifontLeaves a) : Memory.read (loadFont s).mem a = Memory.read s.mem a := by
  rw [read_loadFont_of_hifontLeaves hhigh, State.lowfontMem, Memory.read_writeBlock_table_outside _ _ _ hlow]

/-! ### LOAD_FONT with the default bases (decision D2) -/

theorem read_loadFont_lowfont_default (hlow : s.cfg.lowfontBase = 0x000) (hhigh : s.cfg.hifontBase = 0x050)
    (k : Fin 80) : Memory.read (loadFont s).mem k.val = s.cfg.lowfont[k.val] := by
  have hbase : s.cfg.lowfontBase.toNat + k.val = k.val := by rw [hlow]; exact Nat.zero_add _
  have hleaves : s.HifontLeaves (s.cfg.lowfontBase.toNat + k.val) := by
    refine .inr fun j => ?_
    rw [hbase, hhigh, show (0x050 : Addr).toNat = 80 from rfl]
    omega
  have hread := read_loadFont_lowfont k hleaves
  rwa [hbase] at hread

theorem sameMemoryOutside_loadFont_chip8 (hlow : s.cfg.lowfontBase = 0x000) (hv : s.variant = .chip8) :
    SameMemoryOutside 0x000 80 s (loadFont s) := by
  intro a ha
  refine read_loadFont_outside (fun k => ?_) (.inl hv)
  rw [hlow]
  exact ha k.val k.isLt

/-- The two tables fill the 240 bytes from 0x000 on. -/
theorem sameMemoryOutside_loadFont_default (hlow : s.cfg.lowfontBase = 0x000) (hhigh : s.cfg.hifontBase = 0x050) :
    SameMemoryOutside 0x000 240 s (loadFont s) := by
  intro a ha
  refine read_loadFont_outside (fun k => ?_) (.inr fun j => ?_)
  · rw [hlow]
    exact ha k.val (by omega)
  · rw [hhigh]
    have := ha (80 + j.val) (by omega)
    rwa [Nat.zero_add] at this

end Sys2Proof.Machine
end

section
/-! PROOFS. The statements of the family 70_reset_and_hazards: LOAD_ROM and LOAD_FONT. -/

namespace Sys2Proof.Machine

/-- Settles O57: a program that fits is one block at 0x200; a longer one is refused, or its first 3584 bytes fit. -/
theorem loadRomCopiesTheProgram : Obligations.LoadRomCopiesTheProgram := by
  unfold Obligations.LoadRomCopiesTheProgram
  refine ⟨fun s bytes hlen => ?_, fun s bytes hlong => ⟨loadRom_of_reject hlong, fun hp => ?_⟩⟩
  · exact ⟨s.placeRom bytes, loadRom_of_fits hlen, fun _ hk => read_placeRom s hlen hk,
      sameMemoryOutside_of_writeBlock rfl, rfl⟩
  · rw [loadRom_of_truncate hlong hp, loadRom_of_fits (List.length_take_le _ _)]

/-- Settles O58: at any bases by the order of the two tables, and at the default bases by their distance. -/
theorem loadFontWritesTheGlyphs : Obligations.LoadFontWritesTheGlyphs := by
  unfold Obligations.LoadFontWritesTheGlyphs
  exact ⟨fun s => ⟨read_loadFont_hifont, read_loadFont_lowfont, fun _ => read_loadFont_outside, rfl⟩,
    fun s hlow hhigh => ⟨read_loadFont_lowfont_default hlow hhigh, sameMemoryOutside_loadFont_chip8 hlow,
      sameMemoryOutside_loadFont_default hlow hhigh⟩⟩

end Sys2Proof.Machine
end
